-- ==== Sys2Proof/Word.lean ====
section
/-! DEFINITION. The widths of the VMM CORE (00_scope.md R6, R7; 10_state.md R23 to R30; 30_encoding.md R90, R94), each as a
bit vector, and the one record that several files share: the payload of a valid TLB slot. -/

namespace Sys2Proof

/-- One byte, held as 8 raw bits (44_backing_store_and_physical_memory.md R191). -/
abbrev Byte := BitVec 8

/-- A page number, `la[15:8]` (00_scope.md R6, PAGE_W). -/
abbrev Page := BitVec 8

/-- An offset in a page, `la[7:0]` (00_scope.md R6, OFF_W). -/
abbrev Offset := BitVec 8

/-- A frame number, 0 to 127 (00_scope.md R6, FRAME_W). -/
abbrev Frame := BitVec 7

/-- A logical address, or an offset into the backing store: both are `page ++ offset` (20_memory.md R61, R63). -/
abbrev LAddr := BitVec 16

/-- A physical address (00_scope.md R6, PA_W). -/
abbrev PAddr := BitVec 15

/-- The logical clock and the statistics counters (00_scope.md R7, CTR_W = 32). -/
abbrev Counter := BitVec 32

/-- The operand of a command (00_scope.md R7, ARG_W). -/
abbrev Arg := BitVec 32

/-- A command word, `op[1:0] ++ arg[31:0]` (30_encoding.md R90). -/
abbrev CmdWord := BitVec 34

/-- A response word, `status[1:0] ++ data[31:0]` (30_encoding.md R94). -/
abbrev RespWord := BitVec 34

/-- The 256 bytes of one page, byte `i` at index `i` (44_backing_store_and_physical_memory.md R186). -/
abbrev PageBytes := Vector Byte 256

/-- What a valid TLB slot holds. An invalid slot is `none` and carries no payload, as 10_state.md R34 asks of a model
(10_state.md R23, R27). -/
structure TlbEntry where
  page  : Page
  frame : Frame
  stamp : Counter
  deriving DecidableEq, Repr

end Sys2Proof
end

