-- ==== Sys2Proof/Syntax.lean ====
section
/-! DEFINITION. The instructions: the two commands of 30_encoding.md R91 and the fourteen micro-operations of R101, one
constructor per row of spec/opcode_table.json, and the words they are carried in. -/

namespace Sys2Proof

/-- One constructor per row of the opcode table, in the table's order. -/
inductive Instr where
  /-- XLATE, 40_translate.md R128. -/
  | xlate (arg : Arg)
  /-- RDCSR, 45_stats_and_csr.md R205. -/
  | rdcsr (arg : Arg)
  /-- TLB.LOOKUP, 41_tlb.md R141. -/
  | tlbLookup (page : Page)
  /-- TLB.INSERT, 41_tlb.md R142. -/
  | tlbInsert (page : Page) (frame : Frame) (stamp : Counter)
  /-- TLB.INVALIDATE, 41_tlb.md R144. -/
  | tlbInvalidate (page : Page)
  /-- PT.LOOKUP, 42_page_table.md R160. -/
  | ptLookup (page : Page)
  /-- PT.MAP, 42_page_table.md R161. -/
  | ptMap (page : Page) (frame : Frame)
  /-- PT.UNMAP, 42_page_table.md R162. -/
  | ptUnmap (page : Page)
  /-- FA.ALLOCATE, 43_frame_allocator.md R174; the operand is carried and not used. -/
  | faAllocate (page : Page)
  /-- FA.OCCUPY, 43_frame_allocator.md R173. -/
  | faOccupy (frame : Frame) (page : Page)
  /-- BS.READ_PAGE, 44_backing_store_and_physical_memory.md R186. -/
  | bsReadPage (page : Page)
  /-- PM.WRITE_FRAME, 44_backing_store_and_physical_memory.md R189. -/
  | pmWriteFrame (frame : Frame) (bytes : PageBytes)
  /-- PM.READ_BYTE, 44_backing_store_and_physical_memory.md R190. -/
  | pmReadByte (pa : PAddr)
  /-- ST.RECORD_ACCESS, 45_stats_and_csr.md R200. -/
  | stRecordAccess
  /-- ST.RECORD_TLB_HIT, 45_stats_and_csr.md R201. -/
  | stRecordTlbHit
  /-- ST.RECORD_PAGE_FAULT, 45_stats_and_csr.md R202. -/
  | stRecordPageFault
  deriving DecidableEq, Repr

/-- The two rows of the table whose format is CMD: what a host can send (30_encoding.md R91). -/
def Instr.isCommand : Instr → Bool
  | .xlate _ => true
  | .rdcsr _ => true
  | .tlbLookup _ => false
  | .tlbInsert _ _ _ => false
  | .tlbInvalidate _ => false
  | .ptLookup _ => false
  | .ptMap _ _ => false
  | .ptUnmap _ => false
  | .faAllocate _ => false
  | .faOccupy _ _ => false
  | .bsReadPage _ => false
  | .pmWriteFrame _ _ => false
  | .pmReadByte _ => false
  | .stRecordAccess => false
  | .stRecordTlbHit => false
  | .stRecordPageFault => false

/-- A micro-operation as the sequencer issues it: the 4-bit identifier of 30_encoding.md R101 beside the operands, which are
passed inside the block and not encoded. A line that the micro-operation does not use is 0 in what `encode` writes and
is not looked at by the decoder. -/
structure UopWord where
  uop   : BitVec 4
  page  : Page
  frame : Frame
  stamp : Counter
  bytes : PageBytes
  pa    : PAddr
  deriving DecidableEq, Repr

/-- What an instruction is carried in: a command word on the command port (30_encoding.md R90), or a micro-operation inside
the block (30_encoding.md R101). -/
inductive InstrWord where
  | command (w : CmdWord)
  | uop (u : UopWord)
  deriving DecidableEq, Repr

/-- Why a word is no instruction. -/
inductive DecodeError where
  /-- `op` is 00 or 11 (30_encoding.md R97). -/
  | reservedOpcode (op : BitVec 2)
  /-- The micro-operation identifiers `4'h0` and `4'hF` are unused (30_encoding.md R101). -/
  | unusedUop (uop : BitVec 4)
  deriving DecidableEq, Repr

end Sys2Proof
end

