-- ==== Sys2Proof/WellFormed.lean ====
section
/-! DEFINITION. The check on an instruction: no reserved encoding. The bound of every other operand is in its type. -/

namespace Sys2Proof

/-- The control-register number of an RDCSR is one of the four defined, 0 to 3 (30_encoding.md R93, R98); every value of every
other operand is legal (20_memory.md R61, 30_encoding.md R99). The machine runs an ill-formed RDCSR too: its meaning is the
response ERR_ILLEGAL. -/
def Instr.wellFormed : Instr → Bool
  | .xlate _ => true
  | .rdcsr arg => arg.extractLsb' 0 8 < 4#8
  | .tlbLookup _ => true
  | .tlbInsert _ _ _ => true
  | .tlbInvalidate _ => true
  | .ptLookup _ => true
  | .ptMap _ _ => true
  | .ptUnmap _ => true
  | .faAllocate _ => true
  | .faOccupy _ _ => true
  | .bsReadPage _ => true
  | .pmWriteFrame _ _ => true
  | .pmReadByte _ => true
  | .stRecordAccess => true
  | .stRecordTlbHit => true
  | .stRecordPageFault => true

end Sys2Proof
end

