-- ==== Sys2Proof/Decode.lean ====
section
/-! DEFINITION. The decoder, total on every word and refusing by name, and the encoder, both from the tables of
30_encoding.md R90, R91 and R101. -/

namespace Sys2Proof

/-- `cmd[33:32]` picks the command and `cmd[31:0]` is its operand (30_encoding.md R90, R91). -/
def decodeCommand (w : CmdWord) : Except DecodeError Instr :=
  if w.extractLsb' 32 2 = 0b01#2 then .ok (.xlate (w.extractLsb' 0 32))
  else if w.extractLsb' 32 2 = 0b10#2 then .ok (.rdcsr (w.extractLsb' 0 32))
  else .error (.reservedOpcode (w.extractLsb' 32 2))

/-- The identifier picks the micro-operation, which takes the operands it has from the lines beside it
(30_encoding.md R101). -/
def decodeUop (u : UopWord) : Except DecodeError Instr :=
  match u.uop.toNat with
  | 0x1 => .ok (.tlbLookup u.page)
  | 0x2 => .ok (.tlbInsert u.page u.frame u.stamp)
  | 0x3 => .ok (.tlbInvalidate u.page)
  | 0x4 => .ok (.ptLookup u.page)
  | 0x5 => .ok (.ptMap u.page u.frame)
  | 0x6 => .ok (.ptUnmap u.page)
  | 0x7 => .ok (.faAllocate u.page)
  | 0x8 => .ok (.faOccupy u.frame u.page)
  | 0x9 => .ok (.bsReadPage u.page)
  | 0xA => .ok (.pmWriteFrame u.frame u.bytes)
  | 0xB => .ok (.pmReadByte u.pa)
  | 0xC => .ok .stRecordAccess
  | 0xD => .ok .stRecordTlbHit
  | 0xE => .ok .stRecordPageFault
  | _ => .error (.unusedUop u.uop)

/-- The one decoder: a command word or a micro-operation. -/
def decode : InstrWord → Except DecodeError Instr
  | .command w => decodeCommand w
  | .uop u => decodeUop u

/-- `op[1:0] ++ arg[31:0]` (30_encoding.md R90). -/
def commandWord (op : BitVec 2) (arg : Arg) : CmdWord :=
  (op ++ arg : BitVec (2 + 32))

/-- A micro-operation with every operand line 0. -/
def uopWord (uop : BitVec 4) : UopWord :=
  { uop := uop, page := 0#8, frame := 0#7, stamp := 0#32, bytes := Vector.replicate 256 0#8, pa := 0#15 }

/-- The word of an instruction, from the same two tables (30_encoding.md R91, R101). -/
def encode : Instr → InstrWord
  | .xlate arg => .command (commandWord 0b01#2 arg)
  | .rdcsr arg => .command (commandWord 0b10#2 arg)
  | .tlbLookup page => .uop { uopWord 0x1#4 with page := page }
  | .tlbInsert page frame stamp => .uop { uopWord 0x2#4 with page := page, frame := frame, stamp := stamp }
  | .tlbInvalidate page => .uop { uopWord 0x3#4 with page := page }
  | .ptLookup page => .uop { uopWord 0x4#4 with page := page }
  | .ptMap page frame => .uop { uopWord 0x5#4 with page := page, frame := frame }
  | .ptUnmap page => .uop { uopWord 0x6#4 with page := page }
  | .faAllocate page => .uop { uopWord 0x7#4 with page := page }
  | .faOccupy frame page => .uop { uopWord 0x8#4 with frame := frame, page := page }
  | .bsReadPage page => .uop { uopWord 0x9#4 with page := page }
  | .pmWriteFrame frame bytes => .uop { uopWord 0xA#4 with frame := frame, bytes := bytes }
  | .pmReadByte pa => .uop { uopWord 0xB#4 with pa := pa }
  | .stRecordAccess => .uop (uopWord 0xC#4)
  | .stRecordTlbHit => .uop (uopWord 0xD#4)
  | .stRecordPageFault => .uop (uopWord 0xE#4)

/-- A row of the opcode table as a word: the table gives a micro-operation 4 bits, so one whole byte, and a command 34, so
five bytes; a micro-operation's operands have no bits and are read as 0. -/
def tableWord (nbits w : Nat) : Option InstrWord :=
  if nbits ≤ 8 then
    if w < 2 ^ 4 then some (.uop (uopWord (BitVec.ofNat 4 w))) else none
  else if w < 2 ^ 34 then some (.command (BitVec.ofNat 34 w)) else none

/-- The instruction the decoder reads from a row's word, numbered as spec/opcode_table.json numbers it. -/
def decodeTableWord (nbits w : Nat) : Option Instr :=
  match tableWord nbits w with
  | some word => (decode word).toOption
  | none => none

end Sys2Proof
end

