-- ==== Sys2Proof/Config.lean ====
section
/-! DEFINITION. What is fixed for the machine (00_scope.md R6, R7), and the free values: constants with no body, so that no
proof can depend on what they are. Each free value is named in notes/assumptions. -/

namespace Sys2Proof.Config

/-- `2^CTR_W - 1`, the last value of the clock and of a counter (00_scope.md R7, 60_exceptions.md R219). -/
def ctrMax : Counter := 0xFFFFFFFF#32

/-- PM_BYTES (00_scope.md R6). -/
def pmBytes : Nat := 32768

/-- BS_BYTES (00_scope.md R6, 20_memory.md R63). -/
def bsBytes : Nat := 65536

/-- FREE VALUE (notes/assumptions/2.md). The byte that physical memory holds at an address no fill has reached since the content became unspecified
(10_state.md R46, 93_implementation_defined.md U4). The number is the model's own draw counter, State.freeDraw. -/
opaque pmUnfilled : Nat → PAddr → Byte

/-- FREE VALUE (notes/assumptions/4.md). The content of the attached backing store at an offset that State.store does not list: 20_memory.md R63 makes
the content a parameter of the run. -/
opaque storeContent : LAddr → Byte

/-- FREE VALUE, as are the seven after it (notes/assumptions/7.md). The TLB after a failed backing-store read (60_exceptions.md R222). -/
opaque wreckTlb : Nat → Vector (Option TlbEntry) 16

/-- FREE VALUE. The logical clock after a failed backing-store read (60_exceptions.md R222). -/
opaque wreckClock : Nat → Counter

/-- FREE VALUE. The page table after a failed backing-store read (60_exceptions.md R222). -/
opaque wreckPt : Nat → Vector (Option Frame) 256

/-- FREE VALUE. The occupancy array after a failed backing-store read (60_exceptions.md R222). -/
opaque wreckOcc : Nat → Vector (Option Page) 128

/-- FREE VALUE. The FIFO cursor after a failed backing-store read (60_exceptions.md R222). -/
opaque wreckFifoCursor : Nat → Frame

/-- FREE VALUE. STAT_ADDRESSES after a failed backing-store read (60_exceptions.md R222, 45_stats_and_csr.md R207). -/
opaque wreckStatAddresses : Nat → Counter

/-- FREE VALUE. STAT_TLB_HITS after a failed backing-store read (60_exceptions.md R222, 45_stats_and_csr.md R207). -/
opaque wreckStatTlbHits : Nat → Counter

/-- FREE VALUE. STAT_PAGE_FAULTS after a failed backing-store read (60_exceptions.md R222, 45_stats_and_csr.md R207). -/
opaque wreckStatPageFaults : Nat → Counter

/-- FREE VALUE (notes/assumptions/15.md). RATE_AT_ZERO, the hit rate and the fault rate a host reports when no address was processed
(00_scope.md R7, 45_stats_and_csr.md R204). The block does not use it. -/
opaque rateAtZero : Rat × Rat

end Sys2Proof.Config
end

