-- ==== Sys2Proof/Machine/State.lean ====
section
/-! DEFINITION. The state: the block as 10_state.md R20 lists it, the ports and the environment that the step reads, and the
model's own fields; the reasons a step can stop; the reset state. Plain data throughout. -/

namespace Sys2Proof.Machine

/-- Byte memory, sparse: strictly rising addresses, nothing listed for an address that holds no value the model names.
Reading an unlisted address gives no value, and what uses memory puts a free value there (DESIGN CHOICE,
notes/assumptions/2.md). -/
abbrev Memory := List Host.Cell

/-- `status.err` (60_exceptions.md R220). The code 3 is never produced and is no case here. -/
inductive Err where
  | none
  | bsReadFailure
  | ctrOverflow
  deriving DecidableEq, Repr

/-- `status` (10_state.md R31). -/
structure Status where
  halted : Bool
  err    : Err
  deriving DecidableEq, Repr

/-- The block, element by element as 10_state.md R20 lists it. A tag bit and its payload are one `Option`, as R27 and R34
allow: a payload whose tag is 0 does not exist (notes/assumptions/1.md). -/
structure Block where
  /-- 10_state.md R23. -/
  tlb            : Vector (Option TlbEntry) 16
  /-- 10_state.md R24. -/
  clock          : Counter
  /-- 10_state.md R25. -/
  pt             : Vector (Option Frame) 256
  /-- 10_state.md R26. -/
  occ            : Vector (Option Page) 128
  /-- 10_state.md R28. -/
  fifoCursor     : Frame
  /-- 10_state.md R29. -/
  pm             : Memory
  /-- 10_state.md R30. -/
  statAddresses  : Counter
  /-- 10_state.md R30. -/
  statTlbHits    : Counter
  /-- 10_state.md R30. -/
  statPageFaults : Counter
  /-- 10_state.md R31. -/
  status         : Status
  deriving DecidableEq, Repr

/-- Which of the three cases an XLATE was (30_encoding.md R95). The code 3 is never produced and is no case here. -/
inductive Kind where
  | tlbHit
  | tableHit
  | pageFault
  deriving DecidableEq, Repr

/-- A response on the response port (30_encoding.md R94). Its word is `Response.word`. -/
inductive Response where
  /-- XLATE with status OK (30_encoding.md R95). -/
  | translated (kind : Kind) (value : Byte) (pa : PAddr)
  /-- RDCSR with status OK (30_encoding.md R96). -/
  | csr (data : BitVec 32)
  /-- A reserved opcode or a reserved control-register number. -/
  | errIllegal
  /-- A fatal condition, or an XLATE while halted. -/
  | errFatal
  deriving DecidableEq, Repr

/-- What the host can send (70_reset_and_hazards.md R253). -/
inductive HostInput where
  /-- A command on the command port (30_encoding.md R90). -/
  | command (w : CmdWord)
  /-- The reset input (70_reset_and_hazards.md R246). -/
  | rst
  deriving DecidableEq, Repr

/-- The environment's choice for one page read (44_backing_store_and_physical_memory.md R187, R188). -/
inductive StoreAnswer where
  /-- The store answers with the page, where it holds the whole of it. -/
  | deliver
  /-- The store answers with a failure. -/
  | fail
  /-- The store never answers. -/
  | silent
  deriving DecidableEq, Repr

/-- The backing store, outside the block (20_memory.md R63): the bytes the run names, and the store's size in bytes. -/
structure Store where
  bytes : Memory
  size  : Nat
  deriving DecidableEq, Repr

/-- The result that the last micro-operation issued on its own gave. -/
inductive UopResult where
  | none
  /-- TLB.LOOKUP, PT.LOOKUP, FA.ALLOCATE. -/
  | frame (r : Option Frame)
  /-- BS.READ_PAGE; `none` is `Fail`. -/
  | page (r : Option PageBytes)
  /-- PM.READ_BYTE. -/
  | byte (b : Byte)
  deriving DecidableEq, Repr

/-- The whole state of a step: the block, its ports, its environment, and the model's own fields. -/
structure State where
  /-- 10_state.md R20. -/
  block       : Block
  /-- What the host sends, the next first (00_scope.md R12, R13; as a list: DESIGN CHOICE, notes/assumptions/10.md). -/
  inputs      : List HostInput
  /-- What the block has answered, the last first (30_encoding.md R94). -/
  responses   : List Response
  /-- The instruction taken and not answered, because the store does not answer its page read
  (70_reset_and_hazards.md R250, R252; DESIGN CHOICE, notes/assumptions/11.md). -/
  waiting     : Option Instr
  /-- The backing store (20_memory.md R63; held in the state: DESIGN CHOICE, notes/assumptions/4.md). -/
  store       : Store
  /-- The environment's choices, exactly one used up by each page read, the next first; when none is left a read is delivered
  (44_backing_store_and_physical_memory.md R187; as a list: DESIGN CHOICE, notes/assumptions/5.md). -/
  bsAnswers   : List StoreAnswer
  /-- The model's own: a micro-operation issued on its own. No step sets it (30_encoding.md R101; DESIGN CHOICE,
  notes/assumptions/8.md). -/
  uopIssue    : Option UopWord
  /-- The model's own: the result of the last micro-operation issued on its own (DESIGN CHOICE, notes/assumptions/8.md). -/
  uopResult   : UopResult
  /-- The model's own: the number of the next draw of free values (DESIGN CHOICE, notes/assumptions/3.md). -/
  freeDraw    : Nat
  deriving DecidableEq, Repr

/-- The reasons a step faults. -/
inductive Fault where
  /-- Raised by ST.RECORD_ACCESS, ST.RECORD_TLB_HIT, ST.RECORD_PAGE_FAULT, and an XLATE that invokes one, when the counter is
  at `2^CTR_W - 1`: 00_scope.md R10 says the increment is never performed there, 93_implementation_defined.md U6 says
  `fault`. No run reaches it (10_state.md R42, R43). Safe; DESIGN CHOICE, notes/assumptions/6.md. -/
  | counterWouldWrap
  deriving DecidableEq, Repr

/-- The reasons a step refuses. -/
inductive Refusal where
  /-- An instruction whose meaning is not written. No arm of `exec` answers so. Safe. -/
  | notModelled (mnemonic : String)
  /-- Raised by the step on a micro-operation identifier that 30_encoding.md R101 leaves unused. Only a hand-placed
  `uopIssue` can hold one. Safe; DESIGN CHOICE, notes/assumptions/9.md. -/
  | unusedUop (uop : BitVec 4)
  deriving DecidableEq, Repr

/-- The block after reset, 10_state.md R46: every tag 0, every number 0, nothing known of physical memory. -/
def Block.reset : Block :=
  { tlb            := Vector.replicate 16 none
    clock          := 0#32
    pt             := Vector.replicate 256 none
    occ            := Vector.replicate 128 none
    fifoCursor     := 0#7
    pm             := []
    statAddresses  := 0#32
    statTlbHits    := 0#32
    statPageFaults := 0#32
    status         := { halted := false, err := .none } }

/-- The machine right after reset (70_reset_and_hazards.md R245): the block reset and idle, a store of exactly 65,536 bytes
attached and readable (70_reset_and_hazards.md R247), nothing sent and nothing answered. The values outside the block are
the model's (DESIGN CHOICE, notes/assumptions/19.md). -/
def State.reset : State :=
  { block     := Block.reset
    inputs    := []
    responses := []
    waiting   := none
    store     := { bytes := [], size := Config.bsBytes }
    bsAnswers := []
    uopIssue  := none
    uopResult := .none
    freeDraw  := 0 }

end Sys2Proof.Machine
end

