-- ==== Sys2Proof/Machine/Operands.lean ====
section
/-! DEFINITION. Every operand form: the split of a logical address, the addresses built from a frame or a page, the
control-register number, and the words of a response. -/

namespace Sys2Proof.Machine

/-- `la = arg[15:0]`; the upper half is ignored (30_encoding.md R92, R99). -/
def logicalAddress (arg : Arg) : LAddr := arg.extractLsb' 0 16

/-- `page = la[15:8]` (40_translate.md R122). -/
def pageOf (la : LAddr) : Page := la.extractLsb' 8 8

/-- `offset = la[7:0]` (40_translate.md R122). -/
def offsetOf (la : LAddr) : Offset := la.extractLsb' 0 8

/-- `pa = frame ++ offset`, which is `frame * 256 + offset` (40_translate.md R127, 00_scope.md R10 (c)). -/
def physicalAddress (frame : Frame) (offset : Offset) : PAddr :=
  (frame ++ offset : BitVec (7 + 8))

/-- The frame a physical address names, `pa[14:8]` (20_memory.md R62). -/
def frameOf (pa : PAddr) : Frame := pa.extractLsb' 8 7

/-- Byte `i` of page `page` stands at offset `page ++ i` of the backing store, which is `page * 256 + i`
(44_backing_store_and_physical_memory.md R186, 00_scope.md R10 (d)). -/
def storeOffset (page : Page) (i : Offset) : LAddr :=
  (page ++ i : BitVec (8 + 8))

/-- `n = arg[7:0]`; the rest is ignored (30_encoding.md R93, R99). -/
def csrNumber (arg : Arg) : BitVec 8 := arg.extractLsb' 0 8

/-- The four control registers (10_state.md R48). -/
inductive Csr where
  | statAddresses
  | statTlbHits
  | statPageFaults
  | status
  deriving DecidableEq, Repr

/-- The register a number names; 4 to 255 are reserved (10_state.md R48). -/
def csrOf (n : BitVec 8) : Option Csr :=
  if n = 0#8 then some .statAddresses
  else if n = 1#8 then some .statTlbHits
  else if n = 2#8 then some .statPageFaults
  else if n = 3#8 then some .status
  else none

/-- A byte read as a signed number, two's complement (44_backing_store_and_physical_memory.md R191; PRESUMED by the spec
itself, 93_implementation_defined.md G1). -/
def sint8 (b : Byte) : Int := if b.toNat < 128 then (b.toNat : Int) else (b.toNat : Int) - 256

/-- The `kind` field (30_encoding.md R95). -/
def Kind.code : Kind → BitVec 2
  | .tlbHit => 0b00#2
  | .tableHit => 0b01#2
  | .pageFault => 0b10#2

/-- The `status` field of a response (30_encoding.md R94). -/
def Response.status : Response → BitVec 2
  | .translated _ _ _ => 0b00#2
  | .csr _ => 0b00#2
  | .errIllegal => 0b01#2
  | .errFatal => 0b10#2

/-- The `data` field of a response: for an XLATE `kind ++ value ++ 1'b0 ++ pa`, zero-extended (30_encoding.md R94 to R96,
40_translate.md R128). -/
def Response.data : Response → BitVec 32
  | .translated kind value pa => (kind.code ++ value ++ 0#1 ++ pa).setWidth 32
  | .csr data => data
  | .errIllegal => 0#32
  | .errFatal => 0#32

/-- `resp[33:0] = status[1:0] ++ data[31:0]` (30_encoding.md R94). -/
def Response.word (r : Response) : RespWord := (r.status ++ r.data : BitVec (2 + 32))

end Sys2Proof.Machine
end

