-- ==== Sys2Proof/Machine/Flags.lean ====
section
/-! DEFINITION. The one-bit pieces of state of 10_state.md R32 (there are no condition codes), the status word, and the
outputs that mirror a state bit. -/

namespace Sys2Proof.Machine

/-- Slot `i` of the TLB; `none` when its `valid` is 0 (10_state.md R23). -/
def Block.slot (b : Block) (i : Fin 16) : Option TlbEntry := b.tlb[i.val]

/-- Entry `p` of the page table; `none` when its `mapped` is 0 (10_state.md R25). -/
def Block.ptEntry (b : Block) (p : Page) : Option Frame := b.pt[p.toNat]'p.isLt

/-- Entry `f` of the occupancy array; `none` when its `occupied` is 0 (10_state.md R26). -/
def Block.occEntry (b : Block) (f : Frame) : Option Page := b.occ[f.toNat]'f.isLt

/-- `tlb[i].valid` (10_state.md R32). -/
def Block.valid (b : Block) (i : Fin 16) : Bool := (b.slot i).isSome

/-- `pt[p].mapped` (10_state.md R32). -/
def Block.mapped (b : Block) (p : Page) : Bool := (b.ptEntry p).isSome

/-- `occ[f].occupied` (10_state.md R32). -/
def Block.occupied (b : Block) (f : Frame) : Bool := (b.occEntry f).isSome

/-- `status.halted` (10_state.md R32). -/
def Block.halted (b : Block) : Bool := b.status.halted

/-- The code of `status.err` (60_exceptions.md R220). -/
def Err.code : Err → BitVec 2
  | .none => 0#2
  | .bsReadFailure => 1#2
  | .ctrOverflow => 2#2

/-- The STATUS register: `err ++ halted`, zero-extended (10_state.md R48, 45_stats_and_csr.md R205). -/
def Status.word (st : Status) : BitVec 32 := (st.err.code ++ BitVec.ofBool st.halted).setWidth 32

/-- The content of a control register (10_state.md R48). With CTR_W = 32 the zero-extension of a counter is the counter. -/
def Block.csr (b : Block) : Csr → BitVec 32
  | .statAddresses => b.statAddresses
  | .statTlbHits => b.statTlbHits
  | .statPageFaults => b.statPageFaults
  | .status => b.status.word

/-- The level output `halted` (60_exceptions.md R227). -/
def State.haltedOutput (s : State) : Bool := s.block.halted

/-- `cmd_ready`: 0 from the taking of a command until its response (70_reset_and_hazards.md R250). -/
def State.cmdReady (s : State) : Bool := s.waiting.isNone

/-- The page whose read an instruction in progress is held by. -/
def Instr.heldBy : Instr → Option Page
  | .xlate arg => some (pageOf (logicalAddress arg))
  | .bsReadPage page => some page
  | .rdcsr _ | .tlbLookup _ | .tlbInsert _ _ _ | .tlbInvalidate _ | .ptLookup _ | .ptMap _ _ | .ptUnmap _
  | .faAllocate _ | .faOccupy _ _ | .pmWriteFrame _ _ | .pmReadByte _
  | .stRecordAccess | .stRecordTlbHit | .stRecordPageFault => none

/-- `bs_req` with `bs_page`: the page that the block presents to the backing store while it waits for it
(44_backing_store_and_physical_memory.md R188, 70_reset_and_hazards.md R250). -/
def State.bsRequest (s : State) : Option Page := s.waiting.bind Instr.heldBy

end Sys2Proof.Machine
end

