-- ==== Sys2Proof/Machine/Ops.lean ====
section
/-! DEFINITION. The named operations over memory and the block's arrays, the page read, the fatal path, the reset input, and
placing a word where the step fetches. The micro-operations and the commands are written over these. -/

namespace Sys2Proof.Machine

/-! ### Memory -/

/-- The canonical form: strictly rising addresses. An unlisted address has no value, so no entry can equal what an unlisted
address reads as. -/
def Memory.wf : Memory → Bool
  | [] => true
  | [_] => true
  | c :: d :: m => c.1 < d.1 && Memory.wf (d :: m)

/-- Every address listed is below `limit`. -/
def Memory.within (limit : Nat) (m : Memory) : Bool := m.all fun c => c.1 < limit

/-- The byte listed at an address; no value where none is listed. -/
def Memory.read : Memory → Nat → Option Byte
  | [], _ => none
  | c :: m, a => if c.1 = a then some c.2 else Memory.read m a

/-- Bytes as cells at rising addresses from `a`. -/
def Memory.cells : Nat → List Byte → Memory
  | _, [] => []
  | a, v :: vs => (a, v) :: Memory.cells (a + 1) vs

/-- Write bytes from `a` upward (00_scope.md R9, MemWrite): the cells below, the bytes, the cells above. -/
def Memory.write (m : Memory) (a : Nat) (bytes : List Byte) : Memory :=
  m.filter (fun c => c.1 < a) ++ Memory.cells a bytes ++ m.filter (fun c => a + bytes.length ≤ c.1)

/-! ### Scanning an array -/

/-- The value at the lowest index that has one (00_scope.md R9, "lowest i in A..B such that P(i)"). -/
def lowest {α : Type} : {n : Nat} → (Fin n → Option α) → Option α
  | 0, _ => none
  | _ + 1, f =>
    match f 0 with
    | some a => some a
    | none => lowest fun i => f i.succ

/-! ### Writing one entry of an array -/

/-- Write slot `i` of the TLB. -/
def Block.setSlot (b : Block) (i : Fin 16) (e : Option TlbEntry) : Block :=
  { b with tlb := b.tlb.set i.val e i.isLt }

/-- Write entry `p` of the page table. -/
def Block.setPtEntry (b : Block) (p : Page) (e : Option Frame) : Block :=
  { b with pt := b.pt.set p.toNat e p.isLt }

/-- Write entry `f` of the occupancy array. -/
def Block.setOccEntry (b : Block) (f : Frame) (e : Option Page) : Block :=
  { b with occ := b.occ.set f.toNat e f.isLt }

/-! ### The TLB controller, 41_tlb.md -/

/-- Slot `i` is valid and holds `page`: its entry (41_tlb.md R141). An invalid slot never matches. -/
def tlbMatch (b : Block) (page : Page) (i : Fin 16) : Option TlbEntry :=
  (b.slot i).filter fun e => e.page == page

/-- The lowest slot that is valid and holds `page`, with its entry. -/
def tlbFind (b : Block) (page : Page) : Option (Fin 16 × TlbEntry) :=
  lowest fun i => (tlbMatch b page i).map fun e => (i, e)

/-- TLB.LOOKUP (41_tlb.md R141): on a hit the lowest matching slot is stamped with the clock and its frame returned; on a
miss nothing changes. -/
def lookupTlb (page : Page) (b : Block) : Option Frame × Block :=
  match tlbFind b page with
  | some (j, e) => (some e.frame, b.setSlot j (some { e with stamp := b.clock }))
  | none => (none, b)

/-- The stamp of a slot; the LRU scan runs only when all 16 slots are valid, so the 0 of an invalid slot is never compared
(10_state.md R34). -/
def slotStamp (b : Block) (i : Fin 16) : Counter :=
  match b.slot i with
  | some e => e.stamp
  | none => 0#32

/-- The LRU victim: a left-to-right scan from slot 0 in which a later slot replaces the candidate only if its stamp is
strictly smaller, unsigned (41_tlb.md R143). -/
def lruVictim (b : Block) : Fin 16 :=
  (List.finRange 16).foldl (fun best i => if slotStamp b i < slotStamp b best then i else best) 0

/-- The lowest invalid slot. -/
def invalidSlot (b : Block) : Option (Fin 16) := lowest fun i => if b.valid i then none else some i

/-- The slot TLB.INSERT writes (41_tlb.md R142): the page's own, else the lowest invalid one, else the LRU victim. -/
def insertSlot (b : Block) (page : Page) : Fin 16 :=
  match tlbFind b page with
  | some (j, _) => j
  | none =>
    match invalidSlot b with
    | some j => j
    | none => lruVictim b

/-- TLB.INSERT (41_tlb.md R142). -/
def insertTlb (page : Page) (frame : Frame) (stamp : Counter) (b : Block) : Block :=
  b.setSlot (insertSlot b page) (some { page := page, frame := frame, stamp := stamp })

/-- TLB.INVALIDATE (41_tlb.md R144): every valid slot that holds `page` becomes invalid. -/
def invalidateTlb (page : Page) (b : Block) : Block :=
  { b with tlb := b.tlb.map fun slot => slot.filter fun e => e.page != page }

/-! ### The page table, 42_page_table.md -/

/-- PT.LOOKUP (42_page_table.md R160). -/
def lookupPt (page : Page) (b : Block) : Option Frame := b.ptEntry page

/-- PT.MAP (42_page_table.md R161). -/
def mapPt (page : Page) (frame : Frame) (b : Block) : Block := b.setPtEntry page (some frame)

/-- PT.UNMAP (42_page_table.md R162). -/
def unmapPt (page : Page) (b : Block) : Block := b.setPtEntry page none

/-! ### The frame allocator, 43_frame_allocator.md -/

/-- The lowest-numbered empty frame (43_frame_allocator.md R170). -/
def freeFrame (b : Block) : Option Frame :=
  lowest fun i : Fin 128 => if b.occupied (BitVec.ofFin i) then none else some (BitVec.ofFin i)

/-- Take the page `vp` out of the page table and the TLB (43_frame_allocator.md R171). -/
def evictPage (vp : Page) (b : Block) : Block := invalidateTlb vp (unmapPt vp b)

/-- The eviction path (43_frame_allocator.md R171): the victim frame is the one the cursor names; the cursor advances
modulo 128; the victim page is unmapped and invalidated; the frame is marked empty. `allocateFrame` comes here only with
every frame occupied, so there is always a victim page (DEDUCED, notes/assumptions/20.md). -/
def evictFrame (b : Block) : Frame × Block :=
  let v := b.fifoCursor
  let advanced := { b with fifoCursor := b.fifoCursor + 1#7 }
  let evicted := match b.occEntry v with
    | some vp => evictPage vp advanced
    | none => advanced
  (v, evicted.setOccEntry v none)

/-- FA.ALLOCATE (43_frame_allocator.md R174): the free-frame path, which changes nothing, else the eviction path. The page
operand is not used. -/
def allocateFrame (_page : Page) (b : Block) : Frame × Block :=
  match freeFrame b with
  | some f => (f, b)
  | none => evictFrame b

/-- FA.OCCUPY (43_frame_allocator.md R173). -/
def occupyFrame (frame : Frame) (page : Page) (b : Block) : Block := b.setOccEntry frame (some page)

/-! ### The backing store and physical memory, 44_backing_store_and_physical_memory.md -/

/-- The content of the backing store at an offset (20_memory.md R63): the byte the run names there, else the free one. -/
def Store.byte (st : Store) (a : LAddr) : Byte :=
  match Memory.read st.bytes a.toNat with
  | some v => v
  | none => Config.storeContent a

/-- The store holds the whole of a page (44_backing_store_and_physical_memory.md R187). A store of more than 65,536 bytes holds
every page, and the rest of it is never read: 70_reset_and_hazards.md R247 (b) asks for exactly 65,536, and no rule says how a
page read on a longer store ends (DESIGN CHOICE, notes/assumptions/21.md). -/
def Store.holds (st : Store) (page : Page) : Bool := page.toNat * 256 + 256 ≤ st.size

/-- The 256 bytes of a page (44_backing_store_and_physical_memory.md R186). -/
def Store.page (st : Store) (page : Page) : PageBytes :=
  Vector.ofFn fun i : Fin 256 => st.byte (storeOffset page (BitVec.ofFin i))

/-- How a page read ends (44_backing_store_and_physical_memory.md R186 to R188). -/
inductive PageRead where
  | delivered (bytes : PageBytes)
  | failed
  | unanswered
  deriving DecidableEq, Repr

/-- BS.READ_PAGE (44_backing_store_and_physical_memory.md R186 to R188): the environment's next choice decides, and a page the
store does not hold whole fails. Each read uses up one choice, whichever it is, so no read depends on an earlier one (R185; as
a list: DESIGN CHOICE, notes/assumptions/5.md). -/
def readPage (page : Page) (s : State) : PageRead × State :=
  match s.bsAnswers with
  | .silent :: rest => (.unanswered, { s with bsAnswers := rest })
  | .fail :: rest => (.failed, { s with bsAnswers := rest })
  | .deliver :: rest =>
    (if s.store.holds page then .delivered (s.store.page page) else .failed, { s with bsAnswers := rest })
  | [] => (if s.store.holds page then .delivered (s.store.page page) else .failed, s)

/-- PM.WRITE_FRAME (44_backing_store_and_physical_memory.md R189). -/
def writeFrame (frame : Frame) (bytes : PageBytes) (b : Block) : Block :=
  { b with pm := Memory.write b.pm (physicalAddress frame 0#8).toNat bytes.toList }

/-- PM.READ_BYTE (44_backing_store_and_physical_memory.md R190): the byte, or the free value of an address that no fill has
reached. -/
def readByte (pa : PAddr) (s : State) : Byte :=
  match Memory.read s.block.pm pa.toNat with
  | some v => v
  | none => Config.pmUnfilled s.freeDraw pa

/-! ### The statistics counters, 45_stats_and_csr.md -/

/-- `counter + 1`, never performed when it would not fit (00_scope.md R10 (a)). -/
def increment (c : Counter) : Option Counter := if c = Config.ctrMax then none else some (c + 1#32)

/-- ST.RECORD_ACCESS (45_stats_and_csr.md R200). -/
def recordAccess (b : Block) : Option Block :=
  (increment b.statAddresses).map fun c => { b with statAddresses := c }

/-- ST.RECORD_TLB_HIT (45_stats_and_csr.md R201). -/
def recordTlbHit (b : Block) : Option Block :=
  (increment b.statTlbHits).map fun c => { b with statTlbHits := c }

/-- ST.RECORD_PAGE_FAULT (45_stats_and_csr.md R202). -/
def recordPageFault (b : Block) : Option Block :=
  (increment b.statPageFaults).map fun c => { b with statPageFaults := c }

/-! ### Responses, the fatal path, the reset input -/

/-- The block is replaced and everything else kept. -/
def State.withBlock (s : State) (b : Block) : State := { s with block := b }

/-- `respond` (00_scope.md R9, 30_encoding.md R94). -/
def respond (r : Response) (s : State) : State := { s with responses := r :: s.responses }

/-- Every element of the block but `status` becomes a free value (60_exceptions.md R222): a fresh draw, and no byte of
physical memory known (DESIGN CHOICE, notes/assumptions/7.md). -/
def State.wreck (s : State) : State :=
  { s with
    block :=
      { tlb            := Config.wreckTlb s.freeDraw
        clock          := Config.wreckClock s.freeDraw
        pt             := Config.wreckPt s.freeDraw
        occ            := Config.wreckOcc s.freeDraw
        fifoCursor     := Config.wreckFifoCursor s.freeDraw
        pm             := []
        statAddresses  := Config.wreckStatAddresses s.freeDraw
        statTlbHits    := Config.wreckStatTlbHits s.freeDraw
        statPageFaults := Config.wreckStatPageFaults s.freeDraw
        status         := s.block.status }
    freeDraw := s.freeDraw + 1 }

/-- `status.halted <- 1; status.err <- code`. -/
def State.halt (s : State) (code : Err) : State :=
  { s with block := { s.block with status := { halted := true, err := code } } }

/-- The fatal path, the block's one exception entry (60_exceptions.md R221): `status` is set and ERR_FATAL answered. After a
failed page read every other element is unspecified (60_exceptions.md R222). There is no return from it: only
the reset input leaves the halted state (60_exceptions.md R223). -/
def raiseFatal (code : Err) (s : State) : State :=
  match code with
  | .bsReadFailure => respond .errFatal (s.wreck.halt code)
  | .ctrOverflow => respond .errFatal (s.halt code)
  | .none => respond .errFatal (s.halt code)

/-- The reset input (70_reset_and_hazards.md R246): the block is reset from any state, a command in progress is abandoned
with no response, and the content of physical memory is unspecified anew (DESIGN CHOICE, notes/assumptions/12.md). -/
def applyReset (s : State) : State :=
  { s with block := Block.reset, waiting := none, uopIssue := none, freeDraw := s.freeDraw + 1 }

/-! ### Fetching -/

/-- What the step finds to do next. -/
inductive Fetched where
  /-- The block waits: for a command, or for ever for a page that the store does not deliver. -/
  | idle
  /-- The reset input, and the state with it taken. -/
  | rst (s : State)
  /-- A word, and the state with it taken. -/
  | word (w : InstrWord) (s : State)

/-- Where the step finds its next word: a micro-operation issued on its own, else the host's next input. With an instruction in
progress the block takes nothing but the reset input (70_reset_and_hazards.md R246, R248): there is no timeout, and the
read in progress is the one that is never answered (44_backing_store_and_physical_memory.md R188; DESIGN CHOICE,
notes/assumptions/11.md). -/
def fetch (s : State) : Fetched :=
  match s.uopIssue with
  | some u => .word (.uop u) { s with uopIssue := none }
  | none =>
    match s.waiting, s.inputs with
    | some _, .rst :: rest => .rst { s with inputs := rest }
    | some _, _ => .idle
    | none, [] => .idle
    | none, .rst :: rest => .rst { s with inputs := rest }
    | none, .command w :: rest => .word (.command w) { s with inputs := rest }

/-- What the step does with a word that is no instruction: a reserved opcode is answered ERR_ILLEGAL and changes no state
(30_encoding.md R97); an unused micro-operation identifier is refused. -/
def rejected (e : DecodeError) (s : State) : Host.Outcome State Fault Refusal :=
  match e with
  | .reservedOpcode _ => .next (respond .errIllegal s)
  | .unusedUop uop => .refused (.unusedUop uop)

/-- A word placed where the step fetches. -/
def placeWord (w : InstrWord) (s : State) : State :=
  match w with
  | .command c => { s with uopIssue := none, waiting := none, inputs := .command c :: s.inputs }
  | .uop u => { s with uopIssue := some u }

end Sys2Proof.Machine
end

