-- ==== Sys2Proof/Machine/FrameAllocator.lean ====
section
/-! DEFINITION. The frame allocator's micro-operations (43_frame_allocator.md). -/

namespace Sys2Proof.Machine

/-- FA.ALLOCATE (43_frame_allocator.md R174). There is always a result. -/
def execFaAllocate (page : Page) (s : State) : Host.Outcome State Fault Refusal :=
  .next { s with block := (allocateFrame page s.block).2, uopResult := .frame (some (allocateFrame page s.block).1) }

/-- FA.OCCUPY (43_frame_allocator.md R173). -/
def execFaOccupy (frame : Frame) (page : Page) (s : State) : Host.Outcome State Fault Refusal :=
  .next { s with block := occupyFrame frame page s.block, uopResult := .none }

end Sys2Proof.Machine
end

