-- ==== Sys2Proof/Machine/Memories.lean ====
section
/-! DEFINITION. The micro-operations of the backing-store port and of physical memory
(44_backing_store_and_physical_memory.md). -/

namespace Sys2Proof.Machine

/-- BS.READ_PAGE (44_backing_store_and_physical_memory.md R186 to R188): the page, or `Fail`; with no answer the block
waits. -/
def execBsReadPage (page : Page) (s : State) : Host.Outcome State Fault Refusal :=
  match readPage page s with
  | (.delivered d, t) => .next { t with uopResult := .page (some d) }
  | (.failed, t) => .next { t with uopResult := .page none }
  | (.unanswered, t) => .next { t with waiting := some (.bsReadPage page) }

/-- PM.WRITE_FRAME (44_backing_store_and_physical_memory.md R189). -/
def execPmWriteFrame (frame : Frame) (bytes : PageBytes) (s : State) : Host.Outcome State Fault Refusal :=
  .next { s with block := writeFrame frame bytes s.block, uopResult := .none }

/-- PM.READ_BYTE (44_backing_store_and_physical_memory.md R190). -/
def execPmReadByte (pa : PAddr) (s : State) : Host.Outcome State Fault Refusal :=
  .next { s with uopResult := .byte (readByte pa s) }

end Sys2Proof.Machine
end

