-- ==== Sys2Proof/Machine/PageTable.lean ====
section
/-! DEFINITION. The page-table walker's micro-operations (42_page_table.md). -/

namespace Sys2Proof.Machine

/-- PT.LOOKUP (42_page_table.md R160). -/
def execPtLookup (page : Page) (s : State) : Host.Outcome State Fault Refusal :=
  .next { s with uopResult := .frame (lookupPt page s.block) }

/-- PT.MAP (42_page_table.md R161). -/
def execPtMap (page : Page) (frame : Frame) (s : State) : Host.Outcome State Fault Refusal :=
  .next { s with block := mapPt page frame s.block, uopResult := .none }

/-- PT.UNMAP (42_page_table.md R162). -/
def execPtUnmap (page : Page) (s : State) : Host.Outcome State Fault Refusal :=
  .next { s with block := unmapPt page s.block, uopResult := .none }

end Sys2Proof.Machine
end

