-- ==== Sys2Proof/Machine/Stats.lean ====
section
/-! DEFINITION. The statistics micro-operations and the RDCSR command (45_stats_and_csr.md). -/

namespace Sys2Proof.Machine

/-- A counter update, or the fault of a counter that has no next value (93_implementation_defined.md U6). -/
def counted (r : Option Block) (s : State) : Host.Outcome State Fault Refusal :=
  match r with
  | some b => .next { s with block := b, uopResult := .none }
  | none => .fault .counterWouldWrap

/-- ST.RECORD_ACCESS (45_stats_and_csr.md R200). -/
def execStRecordAccess (s : State) : Host.Outcome State Fault Refusal :=
  counted (recordAccess s.block) s

/-- ST.RECORD_TLB_HIT (45_stats_and_csr.md R201). -/
def execStRecordTlbHit (s : State) : Host.Outcome State Fault Refusal :=
  counted (recordTlbHit s.block) s

/-- ST.RECORD_PAGE_FAULT (45_stats_and_csr.md R202). -/
def execStRecordPageFault (s : State) : Host.Outcome State Fault Refusal :=
  counted (recordPageFault s.block) s

/-- RDCSR (45_stats_and_csr.md R205): a register's content, or ERR_ILLEGAL for a reserved number (30_encoding.md R98); no
state changes, halted or not (45_stats_and_csr.md R207). -/
def execRdcsr (arg : Arg) (s : State) : Host.Outcome State Fault Refusal :=
  match csrOf (csrNumber arg) with
  | some c => .next (respond (.csr (s.block.csr c)) s)
  | none => .next (respond .errIllegal s)

end Sys2Proof.Machine
end

