-- ==== Sys2Proof/Machine/Tlb.lean ====
section
/-! DEFINITION. The TLB controller's micro-operations (41_tlb.md). -/

namespace Sys2Proof.Machine

/-- TLB.LOOKUP (41_tlb.md R141). -/
def execTlbLookup (page : Page) (s : State) : Host.Outcome State Fault Refusal :=
  .next { s with block := (lookupTlb page s.block).2, uopResult := .frame (lookupTlb page s.block).1 }

/-- TLB.INSERT (41_tlb.md R142). -/
def execTlbInsert (page : Page) (frame : Frame) (stamp : Counter) (s : State) : Host.Outcome State Fault Refusal :=
  .next { s with block := insertTlb page frame stamp s.block, uopResult := .none }

/-- TLB.INVALIDATE (41_tlb.md R144). -/
def execTlbInvalidate (page : Page) (s : State) : Host.Outcome State Fault Refusal :=
  .next { s with block := invalidateTlb page s.block, uopResult := .none }

end Sys2Proof.Machine
end

