-- ==== Sys2Proof/Machine/Translate.lean ====
section
/-! DEFINITION. The XLATE command (40_translate.md): the sequencer over the operations, and the micro-operation trace of
R132. -/

namespace Sys2Proof.Machine

/-- How steps 3 to 6 end. -/
inductive Resolved where
  /-- The page's frame, and which of the three cases it was. -/
  | found (kind : Kind) (frame : Frame) (s : State)
  /-- The page read failed (60_exceptions.md R216). -/
  | readFailed (s : State)
  /-- The store does not answer (44_backing_store_and_physical_memory.md R188). -/
  | unanswered (s : State)
  /-- A counter has no next value (93_implementation_defined.md U6). -/
  | counterFull

/-- Step 5 after the page is there: fill, map, occupy, in the source's order (40_translate.md R125). -/
def loadPage (page : Page) (frame : Frame) (bytes : PageBytes) (b : Block) : Block :=
  occupyFrame frame page (mapPt page frame (writeFrame frame bytes b))

/-- Step 5, the page fault, and step 6 after it (40_translate.md R125, R126). -/
def serviceFault (page : Page) (s : State) : Resolved :=
  match recordPageFault s.block with
  | none => .counterFull
  | some b =>
    let frame := (allocateFrame page b).1
    match readPage page (s.withBlock (allocateFrame page b).2) with
    | (.failed, t) => .readFailed t
    | (.unanswered, t) => .unanswered t
    | (.delivered d, t) =>
      let loaded := loadPage page frame d t.block
      .found .pageFault frame (t.withBlock (insertTlb page frame loaded.clock loaded))

/-- Steps 3 to 6 (40_translate.md R123 to R126). -/
def resolve (page : Page) (s : State) : Resolved :=
  match lookupTlb page s.block with
  | (some frame, b) =>
    match recordTlbHit b with
    | some b' => .found .tlbHit frame (s.withBlock b')
    | none => .counterFull
  | (none, b) =>
    match lookupPt page b with
    | some frame => .found .tableHit frame (s.withBlock (insertTlb page frame b.clock b))
    | none => serviceFault page (s.withBlock b)

/-- Step 1 (40_translate.md R121): the clock advances and the access is counted. -/
def startAccess (b : Block) : Option Block :=
  recordAccess { b with clock := b.clock + 1#32 }

/-- Step 7 (40_translate.md R127). -/
def finishAccess (kind : Kind) (frame : Frame) (offset : Offset) (s : State) : State :=
  respond (.translated kind (readByte (physicalAddress frame offset) s) (physicalAddress frame offset)) s

/-- XLATE (40_translate.md R128). With a store that does not answer, the command stays in progress and none of its effects is
there, but that its page read has used up its choice: a command is one indivisible step (20_memory.md R68; DEDUCED,
notes/assumptions/11.md, 18.md). What is kept of it is the logical address. -/
def execXlate (arg : Arg) (s : State) : Host.Outcome State Fault Refusal :=
  if s.block.halted then .next (respond .errFatal s)
  else if s.block.clock = Config.ctrMax then .next (raiseFatal .ctrOverflow s)
  else
    match startAccess s.block with
    | none => .fault .counterWouldWrap
    | some b =>
      match resolve (pageOf (logicalAddress arg)) (s.withBlock b) with
      | .found kind frame t => .next (finishAccess kind frame (offsetOf (logicalAddress arg)) t)
      | .readFailed t => .next (raiseFatal .bsReadFailure t)
      | .unanswered t =>
        .next { s with waiting := some (.xlate ((logicalAddress arg).setWidth 32)), bsAnswers := t.bsAnswers }
      | .counterFull => .fault .counterWouldWrap

/-- The trace of steps 4 to 7 of an XLATE that missed in the TLB, on the block after step 1 (40_translate.md R132). -/
def missTrace (page : Page) (offset : Offset) (s : State) : List Instr :=
  match lookupPt page s.block with
  | some frame => [.ptLookup page, .tlbInsert page frame s.block.clock, .pmReadByte (physicalAddress frame offset)]
  | none =>
    let frame := (allocateFrame page s.block).1
    [.ptLookup page, .stRecordPageFault, .faAllocate page, .bsReadPage page] ++
      match (readPage page s).1 with
      | .delivered d =>
        [.pmWriteFrame frame d, .ptMap page frame, .faOccupy frame page, .tlbInsert page frame s.block.clock,
          .pmReadByte (physicalAddress frame offset)]
      | .failed => []
      | .unanswered => []

/-- The micro-operations an XLATE invokes, in order and with their operands, on the block whose clock step 1 has advanced
(40_translate.md R132). FA.ALLOCATE invokes PT.UNMAP and TLB.INVALIDATE itself, so they are not listed. -/
def xlateTrace (arg : Arg) (s : State) : List Instr :=
  let page := pageOf (logicalAddress arg)
  let offset := offsetOf (logicalAddress arg)
  [.stRecordAccess, .tlbLookup page] ++
    match lookupTlb page s.block with
    | (some frame, _) => [.stRecordTlbHit, .pmReadByte (physicalAddress frame offset)]
    | (none, _) => missTrace page offset s

end Sys2Proof.Machine
end

