-- ==== Sys2Proof/Machine/Dispatch.lean ====
section
/-! DEFINITION. One arm per instruction: its meaning. -/

namespace Sys2Proof.Machine

def exec (i : Instr) (s : State) : Host.Outcome State Fault Refusal :=
  match i with
  | .xlate arg => Sys2Proof.Machine.execXlate arg s
  | .rdcsr arg => Sys2Proof.Machine.execRdcsr arg s
  | .tlbLookup page => Sys2Proof.Machine.execTlbLookup page s
  | .tlbInsert page frame stamp => Sys2Proof.Machine.execTlbInsert page frame stamp s
  | .tlbInvalidate page => Sys2Proof.Machine.execTlbInvalidate page s
  | .ptLookup page => Sys2Proof.Machine.execPtLookup page s
  | .ptMap page frame => Sys2Proof.Machine.execPtMap page frame s
  | .ptUnmap page => Sys2Proof.Machine.execPtUnmap page s
  | .faAllocate page => Sys2Proof.Machine.execFaAllocate page s
  | .faOccupy frame page => Sys2Proof.Machine.execFaOccupy frame page s
  | .bsReadPage page => Sys2Proof.Machine.execBsReadPage page s
  | .pmWriteFrame frame bytes => Sys2Proof.Machine.execPmWriteFrame frame bytes s
  | .pmReadByte pa => Sys2Proof.Machine.execPmReadByte pa s
  | .stRecordAccess => Sys2Proof.Machine.execStRecordAccess s
  | .stRecordTlbHit => Sys2Proof.Machine.execStRecordTlbHit s
  | .stRecordPageFault => Sys2Proof.Machine.execStRecordPageFault s

end Sys2Proof.Machine
end

