-- ==== Sys2Proof/Machine/Step.lean ====
section
/-! DEFINITION. One step: what `fetch` finds, decoded and run. A command with all its micro-operations is one step
(20_memory.md R68). -/

namespace Sys2Proof.Machine

/-- Take the next input: reset, or decode a word and run it. While the block waits, for a command (10_state.md R46) or for a
page that the store does not deliver (70_reset_and_hazards.md R252), nothing changes. -/
def step (s : State) : Host.Outcome State Fault Refusal :=
  match fetch s with
  | .idle => .next s
  | .rst t => .next (applyReset t)
  | .word w t =>
    match decode w with
    | .ok i => exec i t
    | .error e => rejected e t

/-- A row's word placed where the step fetches: a command word as the host's next input, a micro-operation identifier in the
sequencer's issue slot. -/
def State.withFetchWord (s : State) (nbits w : Nat) : State :=
  match tableWord nbits w with
  | some word => placeWord word s
  | none => s

/-- Instructions run one after another, for the traces of 40_translate.md R132. -/
def runInstrs : List Instr → State → Host.Outcome State Fault Refusal
  | [], s => .next s
  | i :: is, s =>
    match exec i s with
    | .next t => runInstrs is t
    | .fault r => .fault r
    | .refused r => .refused r

end Sys2Proof.Machine
end

