-- ==== Sys2Proof/Machine/HostSide.lean ====
section
/-! DEFINITION. The host's side of 30_encoding.md R103 to R106 and 45_stats_and_csr.md R203, R204: how an integer, a mnemonic
line, a pseudo-instruction and an address file become command words, and the two rates. No step uses this file. -/

namespace Sys2Proof.Machine

/-- `arg = s mod 2^32` (30_encoding.md R106). -/
def argOfInt (z : Int) : Arg := BitVec.ofInt 32 z

/-- The word of `XLATE z` (30_encoding.md R103). -/
def xlateWord (z : Int) : CmdWord := (0b01#2 ++ argOfInt z : BitVec (2 + 32))

/-- The word of `RDCSR n` (30_encoding.md R103). -/
def rdcsrWord (n : BitVec 8) : CmdWord := (0b10#2 ++ n.setWidth 32 : BitVec (2 + 32))

/-- The number of a control register's name (10_state.md R48, 30_encoding.md R103). -/
def Csr.number : Csr → BitVec 8
  | .statAddresses => 0#8
  | .statTlbHits => 1#8
  | .statPageFaults => 2#8
  | .status => 3#8

/-- One line of the mnemonic syntax (30_encoding.md R103, R105). -/
inductive Line where
  /-- `XLATE <int>`. -/
  | xlate (z : Int)
  /-- `RDCSR <n>`. -/
  | rdcsrNumber (n : Nat)
  /-- `RDCSR <name>`. -/
  | rdcsrName (c : Csr)
  /-- A bare integer, which is `XLATE <int>`. -/
  | bare (z : Int)
  /-- `RDSTATS`. -/
  | rdstats
  /-- An empty line, or a comment alone. -/
  | empty
  deriving DecidableEq, Repr

/-- The commands of a line; no value where its operand is out of range (30_encoding.md R103, R105). -/
def Line.commands : Line → Option (List CmdWord)
  | .xlate z => if -2147483648 ≤ z ∧ z ≤ 4294967295 then some [xlateWord z] else none
  | .rdcsrNumber n => if n ≤ 255 then some [rdcsrWord (BitVec.ofNat 8 n)] else none
  | .rdcsrName c => some [rdcsrWord c.number]
  | .bare z => if -2147483648 ≤ z ∧ z ≤ 4294967295 then some [xlateWord z] else none
  | .rdstats => some [rdcsrWord 1#8, rdcsrWord 0#8, rdcsrWord 2#8]
  | .empty => some []

/-! ### Reading text -/

/-- The value of a decimal digit. -/
def decimalDigit (c : Char) : Option Nat :=
  if 48 ≤ c.toNat ∧ c.toNat ≤ 57 then some (c.toNat - 48) else none

/-- The value of a hexadecimal digit, in either case. -/
def hexDigit (c : Char) : Option Nat :=
  if 48 ≤ c.toNat ∧ c.toNat ≤ 57 then some (c.toNat - 48)
  else if 65 ≤ c.toNat ∧ c.toNat ≤ 70 then some (c.toNat - 55)
  else if 97 ≤ c.toNat ∧ c.toNat ≤ 102 then some (c.toNat - 87)
  else none

/-- Digits read on from a value; no value where a character is no digit. -/
def readDigits (digit : Char → Option Nat) (base : Nat) : Nat → List Char → Option Nat
  | n, [] => some n
  | n, c :: cs =>
    match digit c with
    | some d => readDigits digit base (n * base + d) cs
    | none => none

/-- One or more decimal digits. -/
def readNat : List Char → Option Nat
  | [] => none
  | c :: cs => readDigits decimalDigit 10 0 (c :: cs)

/-- One or more hexadecimal digits. -/
def readHex : List Char → Option Nat
  | [] => none
  | c :: cs => readDigits hexDigit 16 0 (c :: cs)

/-- A decimal integer, optionally signed. -/
def readSigned : List Char → Option Int
  | '-' :: cs => (readNat cs).map fun n => -(n : Int)
  | '+' :: cs => (readNat cs).map fun n => (n : Int)
  | cs => (readNat cs).map fun n => (n : Int)

/-- The integer of the mnemonic syntax: decimal, optionally signed, or `0x` hexadecimal (30_encoding.md R103). -/
def readInteger : List Char → Option Int
  | '0' :: 'x' :: cs => (readHex cs).map fun n => (n : Int)
  | cs => readSigned cs

/-- A character between two tokens. -/
def isBlank (c : Char) : Bool := c = ' ' || (9 ≤ c.toNat && c.toNat ≤ 13)

/-- The tokens of a text; the first argument is the token being read, the last character first. -/
def splitTokens : List Char → List Char → List (List Char)
  | [], [] => []
  | word, [] => [word.reverse]
  | word, c :: cs =>
    if isBlank c then
      match word with
      | [] => splitTokens [] cs
      | w :: ws => (w :: ws).reverse :: splitTokens [] cs
    else splitTokens (c :: word) cs

/-- The name of a control register (10_state.md R48, 30_encoding.md R103). -/
def csrOfName (token : List Char) : Option Csr :=
  if token = ['S', 'T', 'A', 'T', '_', 'A', 'D', 'D', 'R', 'E', 'S', 'S', 'E', 'S'] then some .statAddresses
  else if token = ['S', 'T', 'A', 'T', '_', 'T', 'L', 'B', '_', 'H', 'I', 'T', 'S'] then some .statTlbHits
  else if token = ['S', 'T', 'A', 'T', '_', 'P', 'A', 'G', 'E', '_', 'F', 'A', 'U', 'L', 'T', 'S'] then
    some .statPageFaults
  else if token = ['S', 'T', 'A', 'T', 'U', 'S'] then some .status
  else none

/-- One line of the mnemonic syntax, its comment cut off (what is blank and what is a digit: notes/assumptions/14.md); no value for any other text (30_encoding.md R103, R105). -/
def readLine (text : List Char) : Option Line :=
  match splitTokens [] (text.takeWhile fun c => c != '#') with
  | [] => some .empty
  | [token] =>
    if token = ['R', 'D', 'S', 'T', 'A', 'T', 'S'] then some .rdstats else (readInteger token).map .bare
  | [name, token] =>
    if name = ['X', 'L', 'A', 'T', 'E'] then (readInteger token).map .xlate
    else if name = ['R', 'D', 'C', 'S', 'R'] then
      match csrOfName token with
      | some c => some (.rdcsrName c)
      | none => (readNat token).map .rdcsrNumber
    else none
  | _ => none

/-- A token of the address file: a decimal integer, optionally signed, in the signed 32-bit range; no value for any other
token (30_encoding.md R104, 92_eei_decisions.md D30, D36; decimal is PRESUMED by the spec itself,
93_implementation_defined.md G3). -/
def readToken (token : List Char) : Option Int :=
  (readSigned token).filter fun z => decide (-2147483648 ≤ z ∧ z ≤ 2147483647)

/-- The commands of an address file, token by token, up to the first token that is no integer: neither it nor anything after
it becomes a command (30_encoding.md R104). -/
def addressFile : List (List Char) → List CmdWord
  | [] => []
  | token :: tokens =>
    match readToken token with
    | some z => xlateWord z :: addressFile tokens
    | none => []

/-- The commands of the text of an address file: whitespace-separated tokens (30_encoding.md R104). -/
def addressFileText (text : List Char) : List CmdWord := addressFile (splitTokens [] text)

/-! ### The rates -/

/-- `100 * count / addresses` as an exact number; the host's convention where no address was processed
(45_stats_and_csr.md R204). Rounding to two decimals is out of scope (00_scope.md R5). -/
def rate (atZero : Rat) (count addresses : Counter) : Rat :=
  if addresses = 0#32 then atZero else 100 * (count.toNat : Rat) / (addresses.toNat : Rat)

/-- The hit rate a host reports (45_stats_and_csr.md R204). -/
def hitRate (b : Block) : Rat := rate Config.rateAtZero.1 b.statTlbHits b.statAddresses

/-- The fault rate a host reports (45_stats_and_csr.md R204). -/
def faultRate (b : Block) : Rat := rate Config.rateAtZero.2 b.statPageFaults b.statAddresses

end Sys2Proof.Machine
end

