-- ==== Sys2Proof/Safety.lean ====
section
/-! DEFINITION. What a safe state is: the invariants of 10_state.md R35 to R45, each under its own name, and the good end of a
run (70_reset_and_hazards.md R254). They are promised but after a failed page read, which leaves everything but `status`
unspecified (60_exceptions.md R222). -/

namespace Sys2Proof.Machine

/-- At most one page maps to a frame (10_state.md R35). -/
def Block.PtInjective (b : Block) : Prop :=
  ∀ p q f, b.ptEntry p = some f → b.ptEntry q = some f → p = q

/-- Occupancy is the inverse of the page table (10_state.md R36). -/
def Block.OccInverse (b : Block) : Prop :=
  ∀ f p, b.occEntry f = some p ↔ b.ptEntry p = some f

/-- The TLB is a subset of the page table (10_state.md R37). -/
def Block.TlbSubset (b : Block) : Prop :=
  ∀ i e, b.slot i = some e → b.ptEntry e.page = some e.frame

/-- No page is in two valid slots (10_state.md R38). -/
def Block.TlbUnique (b : Block) : Prop :=
  ∀ i j d e, b.slot i = some d → b.slot j = some e → d.page = e.page → i = j

/-- The occupied frames are the frames below the number of page faults, capped at 128 (10_state.md R40). -/
def Block.OccPrefix (b : Block) : Prop :=
  ∀ f, b.occupied f = true ↔ f.toNat < min b.statPageFaults.toNat 128

/-- A valid slot's stamp is from 1 to the clock, and no two valid slots have the same (10_state.md R41). -/
def Block.StampsOrdered (b : Block) : Prop :=
  (∀ i e, b.slot i = some e → 1#32 ≤ e.stamp ∧ e.stamp ≤ b.clock) ∧
  ∀ i j d e, b.slot i = some d → b.slot j = some e → d.stamp = e.stamp → i = j

/-- The clock equals STAT_ADDRESSES (10_state.md R42). -/
def Block.ClockCounts (b : Block) : Prop := b.clock = b.statAddresses

/-- Hits and faults together are at most the addresses (10_state.md R43). -/
def Block.CountersBounded (b : Block) : Prop :=
  b.statTlbHits.toNat + b.statPageFaults.toNat ≤ b.statAddresses.toNat

/-- An occupied frame holds its page's bytes of the backing store (10_state.md R44). -/
def Block.Mirrors (st : Store) (b : Block) : Prop :=
  ∀ f p i, b.occEntry f = some p →
    Memory.read b.pm (physicalAddress f i).toNat = some (st.byte (storeOffset p i))

/-- The cursor is the number of evictions modulo 128, and the evictions are the page faults beyond the first 128
(10_state.md R45). -/
def Block.CursorCounts (b : Block) : Prop :=
  b.fifoCursor.toNat = (b.statPageFaults.toNat - 128) % 128

/-- Physical memory is in its canonical form and inside its 32,768 addresses (20_memory.md R62). -/
def Block.PmWf (b : Block) : Prop :=
  Memory.wf b.pm = true ∧ Memory.within Config.pmBytes b.pm = true

/-- Everything promised of a block that no page read has failed on, against the store it loads from. -/
structure Block.Good (st : Store) (b : Block) : Prop where
  ptInjective     : b.PtInjective
  occInverse      : b.OccInverse
  tlbSubset       : b.TlbSubset
  tlbUnique       : b.TlbUnique
  occPrefix       : b.OccPrefix
  stampsOrdered   : b.StampsOrdered
  clockCounts     : b.ClockCounts
  countersBounded : b.CountersBounded
  mirrors         : b.Mirrors st
  cursorCounts    : b.CursorCounts

/-- The invariant of a run. `good` is 10_state.md R35 to R38 and R40 to R45, halted or not, unless a page read has failed:
after CTR_OVERFLOW every element but `status` is as before (60_exceptions.md R222). `statusCoded`, that `status` says halted
exactly when it holds a code, is 60_exceptions.md R220 and R221. The other clauses are about the model's own form: the
canonical memory (notes/assumptions/2.md); no micro-operation issued on its own (notes/assumptions/8.md); only an XLATE in
progress, and none while halted (notes/assumptions/11.md). -/
structure State.Inv (s : State) : Prop where
  pmWf        : s.block.PmWf
  noUop       : s.uopIssue = none
  waitsXlate  : ∀ i, s.waiting = some i → ∃ arg, i = Instr.xlate arg
  waitsLive   : s.block.halted = true → s.waiting = none
  statusCoded : s.block.halted = false ↔ s.block.status.err = Err.none
  good        : s.block.status.err ≠ Err.bsReadFailure → s.block.Good s.store

/-- A good end of a run (70_reset_and_hazards.md R254): nothing more to do, every command answered, not halted. -/
def State.GoodEnd (s : State) : Prop :=
  s.inputs = [] ∧ s.waiting = none ∧ s.block.halted = false

/-- How many frames are occupied (10_state.md R39). -/
def Block.occupiedCount (b : Block) : Nat :=
  (Finset.univ.filter fun i : Fin 128 => b.occupied (BitVec.ofFin i) = true).card

/-- How many pages are mapped (10_state.md R39). -/
def Block.mappedCount (b : Block) : Nat :=
  (Finset.univ.filter fun i : Fin 256 => b.mapped (BitVec.ofFin i) = true).card

/-- How many TLB slots are valid (10_state.md R39, 41_tlb.md R145). -/
def Block.validCount (b : Block) : Nat :=
  (Finset.univ.filter fun i : Fin 16 => b.valid i = true).card

/-! ### The terms that the statements use -/

/-- No valid slot holds the page. -/
def Block.TlbMisses (b : Block) (p : Page) : Prop := ∀ i e, b.slot i = some e → e.page ≠ p

/-- Slot `j` holds the page, and no lower valid slot does (41_tlb.md R141). -/
def Block.TlbHits (b : Block) (p : Page) (j : Fin 16) (e : TlbEntry) : Prop :=
  b.slot j = some e ∧ e.page = p ∧ ∀ i < j, ∀ d, b.slot i = some d → d.page ≠ p

/-- The three cases of 41_tlb.md R142 for the slot TLB.INSERT writes: the lowest slot that holds the page; where none does, the
lowest invalid slot; where none is invalid, the lowest slot whose stamp is least (R143). -/
def IsInsertSlot (slot : Fin 16 → Option TlbEntry) (p : Page) (j : Fin 16) : Prop :=
  (∃ e, slot j = some e ∧ e.page = p ∧ ∀ i < j, ∀ d, slot i = some d → d.page ≠ p) ∨
  ((∀ i e, slot i = some e → e.page ≠ p) ∧ slot j = none ∧ ∀ i < j, slot i ≠ none) ∨
  ((∀ i e, slot i = some e → e.page ≠ p) ∧ (∀ i, slot i ≠ none) ∧ ∃ e, slot j = some e ∧
    ∀ i d, slot i = some d → e.stamp ≤ d.stamp ∧ (i < j → e.stamp < d.stamp))

/-- An XLATE gets past its opening checks and its access can be counted (40_translate.md R128). -/
def State.Live (s : State) : Prop :=
  s.block.status.halted = false ∧ s.block.clock ≠ 0xFFFFFFFF#32 ∧ s.block.statAddresses ≠ 0xFFFFFFFF#32

/-- The page is in no valid TLB slot and is unmapped, and the fault can be counted (40_translate.md R125). -/
def State.Faults (s : State) (p : Page) : Prop :=
  s.block.TlbMisses p ∧ s.block.ptEntry p = none ∧ s.block.statPageFaults ≠ 0xFFFFFFFF#32

/-- The next page read is answered with the page (44_backing_store_and_physical_memory.md R186). -/
def State.StoreDelivers (s : State) (p : Page) : Prop :=
  (s.bsAnswers = [] ∨ ∃ rest, s.bsAnswers = .deliver :: rest) ∧ p.toNat * 256 + 256 ≤ s.store.size

/-- The next page read is answered with a failure: the environment says so, or the store does not hold the whole page
(44_backing_store_and_physical_memory.md R187). -/
def State.StoreFails (s : State) (p : Page) : Prop :=
  (∃ rest, s.bsAnswers = .fail :: rest) ∨
  ((s.bsAnswers = [] ∨ ∃ rest, s.bsAnswers = .deliver :: rest) ∧ s.store.size < p.toNat * 256 + 256)

/-- The next page read is never answered (44_backing_store_and_physical_memory.md R188). -/
def State.StoreSilent (s : State) : Prop := ∃ rest, s.bsAnswers = .silent :: rest

/-- The step takes the reset input: it stands next, and no micro-operation is issued on its own. -/
def State.TakesReset (s : State) : Prop := s.uopIssue = none ∧ ∃ rest, s.inputs = .rst :: rest

end Sys2Proof.Machine
end

