-- ==== Sys2Proof/Certificates/Slice0/Obligations.lean ====
section
/-! DEFINITION. The statements for the provers, file by file of the spec. A frame is said by an equation: `t.block = { s.block
with tlb := t.block.tlb }` says that every element of the block but the TLB is unchanged. -/

open Sys2Proof Sys2Proof.Machine

/-! ### 30_encoding.md: words -/

/-- Decoding what the encoder writes gives the instruction back, with every operand at every value; and a command word that
decodes is the word of the instruction it decodes to. -/
def Obligations.DecodeEncodeAgree : Prop :=
  (∀ i : Instr, decode (encode i) = .ok i) ∧
  ∀ (w : CmdWord) (i : Instr), decode (.command w) = .ok i → encode i = .command w

/-- A command word is an instruction exactly when its opcode is 01 or 10, and the operand is its low 32 bits (R90, R91). -/
def Obligations.OpcodePicksCommand : Prop :=
  ∀ w : CmdWord,
    (w.toNat / 2 ^ 32 = 1 → decode (.command w) = .ok (.xlate (BitVec.ofNat 32 w.toNat))) ∧
    (w.toNat / 2 ^ 32 = 2 → decode (.command w) = .ok (.rdcsr (BitVec.ofNat 32 w.toNat))) ∧
    (w.toNat / 2 ^ 32 ≠ 1 → w.toNat / 2 ^ 32 ≠ 2 → ∃ e, decode (.command w) = .error e)

/-- Each micro-operation identifier of R101's table, and the two unused ones. -/
def Obligations.IdentifierPicksUop : Prop :=
  ∀ u : UopWord,
    (u.uop = 0x1#4 → decode (.uop u) = .ok (.tlbLookup u.page)) ∧
    (u.uop = 0x2#4 → decode (.uop u) = .ok (.tlbInsert u.page u.frame u.stamp)) ∧
    (u.uop = 0x3#4 → decode (.uop u) = .ok (.tlbInvalidate u.page)) ∧
    (u.uop = 0x4#4 → decode (.uop u) = .ok (.ptLookup u.page)) ∧
    (u.uop = 0x5#4 → decode (.uop u) = .ok (.ptMap u.page u.frame)) ∧
    (u.uop = 0x6#4 → decode (.uop u) = .ok (.ptUnmap u.page)) ∧
    (u.uop = 0x7#4 → decode (.uop u) = .ok (.faAllocate u.page)) ∧
    (u.uop = 0x8#4 → decode (.uop u) = .ok (.faOccupy u.frame u.page)) ∧
    (u.uop = 0x9#4 → decode (.uop u) = .ok (.bsReadPage u.page)) ∧
    (u.uop = 0xA#4 → decode (.uop u) = .ok (.pmWriteFrame u.frame u.bytes)) ∧
    (u.uop = 0xB#4 → decode (.uop u) = .ok (.pmReadByte u.pa)) ∧
    (u.uop = 0xC#4 → decode (.uop u) = .ok .stRecordAccess) ∧
    (u.uop = 0xD#4 → decode (.uop u) = .ok .stRecordTlbHit) ∧
    (u.uop = 0xE#4 → decode (.uop u) = .ok .stRecordPageFault) ∧
    (u.uop = 0x0#4 ∨ u.uop = 0xF#4 → ∃ e, decode (.uop u) = .error e)

/-- Words written out in 95_test_vectors.md, and rows of the opcode table, decode to what they stand for. The spec gives the
8-bit rows an identifier and no operand bits: that every operand is 0 there is the model's choice
(notes/assumptions/13.md). -/
def Obligations.WrittenWordsDecode : Prop :=
  decode (.command 0x112345678#34) = .ok (.xlate 0x12345678#32) ∧
  decode (.command 0x100010001#34) = .ok (.xlate 0x00010001#32) ∧
  decode (.command 0x200000003#34) = .ok (.rdcsr 0x00000003#32) ∧
  decode (.command 0x2FFFFFF01#34) = .ok (.rdcsr 0xFFFFFF01#32) ∧
  decodeTableWord 40 0x100000000 = some (.xlate 0#32) ∧
  decodeTableWord 40 0x200000000 = some (.rdcsr 0#32) ∧
  decodeTableWord 8 0b0001 = some (.tlbLookup 0#8) ∧
  decodeTableWord 8 0b0100 = some (.ptLookup 0#8) ∧
  decodeTableWord 8 0b1000 = some (.faOccupy 0#7 0#8) ∧
  decodeTableWord 8 0b1011 = some (.pmReadByte 0#15) ∧
  decodeTableWord 8 0b1110 = some .stRecordPageFault

/-- R99: the upper operand bits are ignored, by every effect of the command. -/
def Obligations.UpperOperandBitsIgnored : Prop :=
  ∀ (s : State) (a b : Arg),
    (a.extractLsb' 0 16 = b.extractLsb' 0 16 → exec (.xlate a) s = exec (.xlate b) s) ∧
    (a.extractLsb' 0 8 = b.extractLsb' 0 8 → exec (.rdcsr a) s = exec (.rdcsr b) s)

/-- R97: a command with a reserved opcode is answered ERR_ILLEGAL with data 0 and changes no state, halted or not. -/
def Obligations.ReservedOpcodeAnswered : Prop :=
  Response.errIllegal.word = 0x100000000#34 ∧
  ∀ (s : State) (w : CmdWord) (rest : List HostInput), s.uopIssue = none → s.waiting = none →
    s.inputs = .command w :: rest → w.extractLsb' 32 2 = 0b00#2 ∨ w.extractLsb' 32 2 = 0b11#2 →
    step s = .next { s with inputs := rest, responses := .errIllegal :: s.responses }

/-- R98: RDCSR of a number from 4 to 255 is answered ERR_ILLEGAL with data 0 and changes no state, halted or not. -/
def Obligations.ReservedCsrNumberAnswered : Prop :=
  Response.errIllegal.data = 0#32 ∧
  ∀ (s : State) (arg : Arg), 4 ≤ (arg.extractLsb' 0 8).toNat →
    exec (.rdcsr arg) s = .next { s with responses := .errIllegal :: s.responses }

/-- From R94, R95 and R96: where each field of a response stands. What XLATE puts there is said of XLATE. -/
def Obligations.ResponseFieldsPlaced : Prop :=
  (∀ (k : Kind) (v : Byte) (pa : PAddr),
    let w := (Response.translated k v pa).word
    w.extractLsb' 32 2 = 0b00#2 ∧ w.extractLsb' 0 15 = pa ∧ w.extractLsb' 15 1 = 0#1 ∧ w.extractLsb' 16 8 = v ∧
    w.extractLsb' 26 6 = 0#6 ∧ (k = .tlbHit → w.extractLsb' 24 2 = 0b00#2) ∧
    (k = .tableHit → w.extractLsb' 24 2 = 0b01#2) ∧ (k = .pageFault → w.extractLsb' 24 2 = 0b10#2)) ∧
  (∀ d : BitVec 32, (Response.csr d).word.toNat = d.toNat) ∧
  Response.errIllegal.word.toNat = 0x100000000 ∧ Response.errFatal.word.toNat = 0x200000000

/-! ### 40_translate.md: XLATE -/

/-- R123 with R121 and R127: an XLATE whose page is in the TLB. -/
def Obligations.XlateOnTlbHit : Prop :=
  ∀ (s : State) (arg : Arg) (j : Fin 16) (e : TlbEntry), s.Live → s.block.statTlbHits ≠ 0xFFFFFFFF#32 →
    s.block.TlbHits (arg.extractLsb' 8 8) j e →
    ∃ t v, exec (.xlate arg) s = .next t ∧
      (∀ w, Memory.read s.block.pm (e.frame.toNat * 256 + (arg.extractLsb' 0 8).toNat) = some w → v = w) ∧
      t = { s with
        block := t.block
        responses := .translated .tlbHit v (e.frame ++ arg.extractLsb' 0 8 : BitVec (7 + 8)) :: s.responses } ∧
      t.block = { s.block with
        clock := s.block.clock + 1#32, statAddresses := s.block.statAddresses + 1#32
        statTlbHits := s.block.statTlbHits + 1#32, tlb := t.block.tlb } ∧
      ∀ i, t.block.slot i = if i = j then some { e with stamp := s.block.clock + 1#32 } else s.block.slot i

/-- R124 and R126: an XLATE whose page is not in the TLB and is mapped. -/
def Obligations.XlateOnTableHit : Prop :=
  ∀ (s : State) (arg : Arg) (f : Frame), s.Live → s.block.TlbMisses (arg.extractLsb' 8 8) →
    s.block.ptEntry (arg.extractLsb' 8 8) = some f →
    ∃ t v j, exec (.xlate arg) s = .next t ∧
      (∀ w, Memory.read s.block.pm (f.toNat * 256 + (arg.extractLsb' 0 8).toNat) = some w → v = w) ∧
      t = { s with
        block := t.block
        responses := .translated .tableHit v (f ++ arg.extractLsb' 0 8 : BitVec (7 + 8)) :: s.responses } ∧
      t.block = { s.block with
        clock := s.block.clock + 1#32, statAddresses := s.block.statAddresses + 1#32, tlb := t.block.tlb } ∧
      IsInsertSlot s.block.slot (arg.extractLsb' 8 8) j ∧
      ∀ i, t.block.slot i =
        if i = j then some ⟨arg.extractLsb' 8 8, f, s.block.clock + 1#32⟩ else s.block.slot i

/-- R125 on the free-frame path of R170: a page fault that takes the lowest empty frame. The value answered is the store's
byte at the logical address. -/
def Obligations.XlateOnFaultWithFreeFrame : Prop :=
  ∀ (s : State) (arg : Arg) (f : Frame), s.Live → s.Faults (arg.extractLsb' 8 8) →
    s.StoreDelivers (arg.extractLsb' 8 8) → s.block.occEntry f = none → (∀ g < f, s.block.occEntry g ≠ none) →
    ∃ t j, exec (.xlate arg) s = .next t ∧
      t = { s with
        block := t.block, bsAnswers := s.bsAnswers.tail
        responses := .translated .pageFault (s.store.byte (arg.extractLsb' 0 16))
          (f ++ arg.extractLsb' 0 8 : BitVec (7 + 8)) :: s.responses } ∧
      t.block = { s.block with
        clock := s.block.clock + 1#32, statAddresses := s.block.statAddresses + 1#32
        statPageFaults := s.block.statPageFaults + 1#32
        tlb := t.block.tlb, pt := t.block.pt, occ := t.block.occ, pm := t.block.pm } ∧
      (∀ q, t.block.ptEntry q = if q = arg.extractLsb' 8 8 then some f else s.block.ptEntry q) ∧
      (∀ g, t.block.occEntry g = if g = f then some (arg.extractLsb' 8 8) else s.block.occEntry g) ∧
      (∀ (g : Frame) (i : Offset), Memory.read t.block.pm (g.toNat * 256 + i.toNat) =
        if g = f then some (s.store.byte (arg.extractLsb' 8 8 ++ i : BitVec (8 + 8)))
        else Memory.read s.block.pm (g.toNat * 256 + i.toNat)) ∧
      IsInsertSlot s.block.slot (arg.extractLsb' 8 8) j ∧
      ∀ i, t.block.slot i =
        if i = j then some ⟨arg.extractLsb' 8 8, f, s.block.clock + 1#32⟩ else s.block.slot i

/-- R125 on the eviction path of R171: a page fault with every frame occupied. The victim is the frame the cursor names,
whatever was used last; its page leaves the page table and the TLB. -/
def Obligations.XlateOnFaultWithEviction : Prop :=
  ∀ (s : State) (arg : Arg) (vp : Page), s.Live → s.Faults (arg.extractLsb' 8 8) →
    s.StoreDelivers (arg.extractLsb' 8 8) → (∀ g, s.block.occEntry g ≠ none) →
    s.block.occEntry s.block.fifoCursor = some vp →
    ∃ t j, exec (.xlate arg) s = .next t ∧
      t = { s with
        block := t.block, bsAnswers := s.bsAnswers.tail
        responses := .translated .pageFault (s.store.byte (arg.extractLsb' 0 16))
          (s.block.fifoCursor ++ arg.extractLsb' 0 8 : BitVec (7 + 8)) :: s.responses } ∧
      t.block = { s.block with
        clock := s.block.clock + 1#32, statAddresses := s.block.statAddresses + 1#32
        statPageFaults := s.block.statPageFaults + 1#32, fifoCursor := s.block.fifoCursor + 1#7
        tlb := t.block.tlb, pt := t.block.pt, occ := t.block.occ, pm := t.block.pm } ∧
      (∀ q, t.block.ptEntry q = if q = arg.extractLsb' 8 8 then some s.block.fifoCursor
        else if q = vp then none else s.block.ptEntry q) ∧
      (∀ g, t.block.occEntry g =
        if g = s.block.fifoCursor then some (arg.extractLsb' 8 8) else s.block.occEntry g) ∧
      (∀ (g : Frame) (i : Offset), Memory.read t.block.pm (g.toNat * 256 + i.toNat) =
        if g = s.block.fifoCursor then some (s.store.byte (arg.extractLsb' 8 8 ++ i : BitVec (8 + 8)))
        else Memory.read s.block.pm (g.toNat * 256 + i.toNat)) ∧
      IsInsertSlot (fun i => (s.block.slot i).filter fun e => e.page != vp) (arg.extractLsb' 8 8) j ∧
      ∀ i, t.block.slot i = if i = j then some ⟨arg.extractLsb' 8 8, s.block.fifoCursor, s.block.clock + 1#32⟩
        else (s.block.slot i).filter fun e => e.page != vp

/-- R188 and R252, R246, R187: with a store that never answers, the XLATE stays in progress and presents its page to the store;
its read has used up its one choice and nothing else has changed; every later step leaves that state as it is, but for the
reset input, which abandons the command without a response and leaves the choices of later reads as they were. What the block
holds meanwhile is the model's choice (notes/assumptions/11.md). -/
def Obligations.XlateWaitsForSilentStore : Prop :=
  ∀ (s : State) (arg : Arg), s.Live → s.Faults (arg.extractLsb' 8 8) → s.StoreSilent →
    ∃ t, exec (.xlate arg) s = .next t ∧ t = { s with waiting := t.waiting, bsAnswers := s.bsAnswers.tail } ∧
      t.waiting ≠ none ∧ t.bsRequest = some (arg.extractLsb' 8 8) ∧
      (s.uopIssue = none → (∀ rest, s.inputs ≠ .rst :: rest) → step t = .next t) ∧
      (∀ rest, s.uopIssue = none → s.inputs = .rst :: rest → ∃ u, step t = .next u ∧ u.waiting = none ∧
        u.inputs = rest ∧ u.responses = s.responses ∧ u.block = Block.reset ∧ u.bsAnswers = s.bsAnswers.tail)

/-- R132 and R128: an XLATE that gets past its two opening checks and is answered OK does what its micro-operations do one
after another, on the block whose clock step 1 has advanced. -/
def Obligations.XlateIsItsMicroOperations : Prop :=
  ∀ (s t : State) (arg : Arg) (k : Kind) (v : Byte) (pa : PAddr), s.block.status.halted = false →
    s.block.clock ≠ 0xFFFFFFFF#32 → exec (.xlate arg) s = .next t →
    t.responses = .translated k v pa :: s.responses →
    ∃ u, runInstrs (xlateTrace arg (s.withBlock { s.block with clock := s.block.clock + 1#32 }))
        (s.withBlock { s.block with clock := s.block.clock + 1#32 }) = .next u ∧
      u.block = t.block ∧ u.bsAnswers = t.bsAnswers ∧ u.uopResult = .byte v ∧ u.responses = s.responses

/-- R131 (b): translating an address of the same page immediately afterward is a TLB hit in the same frame, which changes no
slot's page or frame. The clock must have a next value. -/
def Obligations.RetranslationHits : Prop :=
  ∀ (s t : State) (a b : Arg) (k : Kind) (v : Byte) (pa : PAddr), s.Inv → exec (.xlate a) s = .next t →
    t.responses = .translated k v pa :: s.responses → t.block.clock ≠ 0xFFFFFFFF#32 →
    b.extractLsb' 8 8 = a.extractLsb' 8 8 →
    ∃ u w, exec (.xlate b) t = .next u ∧
      u.responses = .translated .tlbHit w (pa.extractLsb' 8 7 ++ b.extractLsb' 0 8 : BitVec (7 + 8)) :: t.responses ∧
      ∀ i, (u.block.slot i).map (fun e => (e.page, e.frame)) = (t.block.slot i).map (fun e => (e.page, e.frame))

/-- R131 (c): after an XLATE that is answered OK, its page is mapped, a valid slot holds it stamped with the clock, and the
occupancy of its frame names it. -/
def Obligations.XlateInstallsItsPage : Prop :=
  ∀ (s t : State) (arg : Arg) (k : Kind) (v : Byte) (pa : PAddr), s.Inv → exec (.xlate arg) s = .next t →
    t.responses = .translated k v pa :: s.responses →
    ∃ f i, t.block.ptEntry (arg.extractLsb' 8 8) = some f ∧
      t.block.slot i = some ⟨arg.extractLsb' 8 8, f, t.block.clock⟩ ∧
      t.block.occEntry f = some (arg.extractLsb' 8 8) ∧ pa.extractLsb' 8 7 = f

/-- R131 (e): an XLATE answered OK was a page fault exactly when its page was unmapped at its start. -/
def Obligations.FaultExactlyWhenUnmapped : Prop :=
  ∀ (s t : State) (arg : Arg) (k : Kind) (v : Byte) (pa : PAddr), s.Inv → exec (.xlate arg) s = .next t →
    t.responses = .translated k v pa :: s.responses →
    (k = .pageFault ↔ s.block.ptEntry (arg.extractLsb' 8 8) = none)

/-- R77: whatever the history, an XLATE answered OK returns the byte of the backing store at the logical address, and the
offset unchanged. -/
def Obligations.TranslationReturnsStoreByte : Prop :=
  ∀ (s t : State) (arg : Arg) (k : Kind) (v : Byte) (pa : PAddr), s.Inv → exec (.xlate arg) s = .next t →
    t.responses = .translated k v pa :: s.responses →
    v = s.store.byte (arg.extractLsb' 0 16) ∧ pa.extractLsb' 0 8 = arg.extractLsb' 0 8

/-- R120, R216, R224: what alone makes an XLATE answer ERR_FATAL, in the order of priority; none of it depends on the operand
being legal. -/
def Obligations.OnlyTheseMakeXlateFatal : Prop :=
  ∀ (s t : State) (arg : Arg), exec (.xlate arg) s = .next t → t.responses = .errFatal :: s.responses →
    (s.block.status.halted = true ∧ t.block = s.block) ∨
    (s.block.status.halted = false ∧ s.block.clock = 0xFFFFFFFF#32 ∧
      t.block = { s.block with status := ⟨true, .ctrOverflow⟩ }) ∨
    (s.block.status.halted = false ∧ s.block.clock ≠ 0xFFFFFFFF#32 ∧ s.Faults (arg.extractLsb' 8 8) ∧
      s.StoreFails (arg.extractLsb' 8 8) ∧ t.block.status = ⟨true, .bsReadFailure⟩)

/-! ### 41_tlb.md -/

/-- R141: a hit stamps the lowest matching slot with the clock and returns its frame; a miss changes nothing. -/
def Obligations.TlbLookupStampsOrMisses : Prop :=
  ∀ (s : State) (p : Page),
    (∀ j e, s.block.TlbHits p j e → ∃ t, exec (.tlbLookup p) s = .next t ∧
      t = { s with block := t.block, uopResult := .frame (some e.frame) } ∧
      t.block = { s.block with tlb := t.block.tlb } ∧
      ∀ i, t.block.slot i = if i = j then some { e with stamp := s.block.clock } else s.block.slot i) ∧
    (s.block.TlbMisses p → exec (.tlbLookup p) s = .next { s with uopResult := .frame none })

/-- R142 and R143: one slot is written, chosen by the three cases. -/
def Obligations.TlbInsertWritesOneSlot : Prop :=
  ∀ (s : State) (p : Page) (f : Frame) (c : Counter), ∃ t j, exec (.tlbInsert p f c) s = .next t ∧
    t = { s with block := t.block, uopResult := .none } ∧ t.block = { s.block with tlb := t.block.tlb } ∧
    IsInsertSlot s.block.slot p j ∧ ∀ i, t.block.slot i = if i = j then some ⟨p, f, c⟩ else s.block.slot i

/-- R144: every valid slot that holds the page becomes invalid, and no other slot changes. -/
def Obligations.TlbInvalidateClearsThePage : Prop :=
  ∀ (s : State) (p : Page), ∃ t, exec (.tlbInvalidate p) s = .next t ∧
    t = { s with block := t.block, uopResult := .none } ∧ t.block = { s.block with tlb := t.block.tlb } ∧
    ∀ i, (∀ e, s.block.slot i = some e → e.page = p → t.block.slot i = none) ∧
      (∀ e, s.block.slot i = some e → e.page ≠ p → t.block.slot i = some e) ∧
      (s.block.slot i = none → t.block.slot i = none)

/-- R146 (a) and (b): a lookup after an insert returns the frame inserted; after an invalidate it returns none. -/
def Obligations.TlbLookupAfterInsertAndInvalidate : Prop :=
  ∀ (s : State) (p : Page) (f : Frame) (c : Counter),
    (∃ t u, exec (.tlbInsert p f c) s = .next t ∧ exec (.tlbLookup p) t = .next u ∧ u.uopResult = .frame (some f)) ∧
    (∃ t u, exec (.tlbInvalidate p) s = .next t ∧ exec (.tlbLookup p) t = .next u ∧ u.uopResult = .frame none)

/-- R145: the number of valid slots is 0 at reset and at most 16; TLB.INSERT adds one exactly when it fills an invalid slot with
a page that is in no valid slot, TLB.INVALIDATE takes one away when it finds its page, and every other case, TLB.LOOKUP
among them, leaves it. -/
def Obligations.TlbCapacity : Prop :=
  State.reset.block.validCount = 0 ∧
  ∀ (s : State) (p : Page) (f : Frame) (c : Counter), s.block.validCount ≤ 16 ∧
    (∃ t, exec (.tlbInsert p f c) s = .next t ∧
      (s.block.TlbMisses p → (∃ i, s.block.slot i = none) → t.block.validCount = s.block.validCount + 1) ∧
      (¬ s.block.TlbMisses p ∨ (∀ i, s.block.slot i ≠ none) → t.block.validCount = s.block.validCount)) ∧
    (∃ t, exec (.tlbInvalidate p) s = .next t ∧
      (s.block.TlbMisses p → t.block.validCount = s.block.validCount) ∧
      (s.block.TlbUnique → ¬ s.block.TlbMisses p → t.block.validCount + 1 = s.block.validCount)) ∧
    (∃ t, exec (.tlbLookup p) s = .next t ∧ t.block.validCount = s.block.validCount)

/-! ### 42_page_table.md -/

/-- R160, R161, R162: LOOKUP returns the page's entry and changes no state; MAP and UNMAP write the page's entry and leave every
other alone. -/
def Obligations.PageTableReadsAndWritesOneEntry : Prop :=
  ∀ (s : State) (p : Page) (f : Frame),
    exec (.ptLookup p) s = .next { s with uopResult := .frame (s.block.ptEntry p) } ∧
    (∃ t, exec (.ptMap p f) s = .next t ∧ t = { s with block := t.block, uopResult := .none } ∧
      t.block = { s.block with pt := t.block.pt } ∧
      ∀ q, t.block.ptEntry q = if q = p then some f else s.block.ptEntry q) ∧
    (∃ t, exec (.ptUnmap p) s = .next t ∧ t = { s with block := t.block, uopResult := .none } ∧
      t.block = { s.block with pt := t.block.pt } ∧
      ∀ q, t.block.ptEntry q = if q = p then none else s.block.ptEntry q)

/-! ### 43_frame_allocator.md -/

/-- R170: the lowest empty frame is returned and the block does not change. -/
def Obligations.FaAllocateTakesLowestEmptyFrame : Prop :=
  ∀ (s : State) (p : Page) (f : Frame), s.block.occEntry f = none → (∀ g < f, s.block.occEntry g ≠ none) →
    exec (.faAllocate p) s = .next { s with uopResult := .frame (some f) }

/-- R171: with every frame occupied the frame the cursor names is the victim; the cursor advances modulo 128; the victim's page
is unmapped and invalidated; the frame is marked empty; physical memory is as it was. -/
def Obligations.FaAllocateEvictsAtTheCursor : Prop :=
  ∀ (s : State) (p vp : Page), (∀ g, s.block.occEntry g ≠ none) →
    s.block.occEntry s.block.fifoCursor = some vp →
    ∃ t, exec (.faAllocate p) s = .next t ∧
      t = { s with block := t.block, uopResult := .frame (some s.block.fifoCursor) } ∧
      t.block = { s.block with
        fifoCursor := t.block.fifoCursor, pt := t.block.pt, tlb := t.block.tlb, occ := t.block.occ } ∧
      t.block.fifoCursor.toNat = (s.block.fifoCursor.toNat + 1) % 128 ∧
      (∀ q, t.block.ptEntry q = if q = vp then none else s.block.ptEntry q) ∧
      (∀ g, t.block.occEntry g = if g = s.block.fifoCursor then none else s.block.occEntry g) ∧
      (∀ i, t.block.slot i = (s.block.slot i).filter fun e => e.page != vp) ∧ t.block.TlbMisses vp

/-- R173: the frame's occupancy entry becomes the page. -/
def Obligations.FaOccupyWritesOneEntry : Prop :=
  ∀ (s : State) (f : Frame) (p : Page), ∃ t, exec (.faOccupy f p) s = .next t ∧
    t = { s with block := t.block, uopResult := .none } ∧ t.block = { s.block with occ := t.block.occ } ∧
    ∀ g, t.block.occEntry g = if g = f then some p else s.block.occEntry g

/-- R45, R170, R172: in a run, the page fault that finds `n` faults before it takes frame `n` while `n` is below 128, and frame
`(n - 128) mod 128` afterwards. -/
def Obligations.FaultsTakeFramesInFifoOrder : Prop :=
  ∀ (s t : State) (arg : Arg) (v : Byte) (pa : PAddr), s.Inv → exec (.xlate arg) s = .next t →
    t.responses = .translated .pageFault v pa :: s.responses →
    (pa.extractLsb' 8 7).toNat =
      if s.block.statPageFaults.toNat < 128 then s.block.statPageFaults.toNat
      else (s.block.statPageFaults.toNat - 128) % 128

/-! ### 44_backing_store_and_physical_memory.md -/

/-- R186: byte `i` of the result is the store's byte at `page * 256 + i`; the block does not change. -/
def Obligations.BsReadPageDelivers : Prop :=
  ∀ (s : State) (p : Page), s.StoreDelivers p → ∃ d : PageBytes,
    exec (.bsReadPage p) s = .next { s with bsAnswers := s.bsAnswers.tail, uopResult := .page (some d) } ∧
    ∀ i : Fin 256, d[i.val] = s.store.byte (BitVec.ofNat 16 (p.toNat * 256 + i.val))

/-- R187: a read that the environment fails, or of a page the store does not hold whole, is `Fail`, and no byte of physical
memory is written. R188: a read that is never answered leaves the block waiting, with the page presented to the store. Each uses
up one choice of the environment, so the next read has its own (R185). -/
def Obligations.BsReadPageFails : Prop :=
  ∀ (s : State) (p : Page),
    (s.StoreFails p →
      exec (.bsReadPage p) s = .next { s with bsAnswers := s.bsAnswers.tail, uopResult := .page none }) ∧
    (s.StoreSilent → ∃ t, exec (.bsReadPage p) s = .next t ∧
      t = { s with bsAnswers := s.bsAnswers.tail, waiting := t.waiting } ∧ t.bsRequest = some p)

/-- R189: the frame's 256 bytes are the bytes given, in order, and every other byte of physical memory is as it was. -/
def Obligations.PmWriteFrameFillsOneFrame : Prop :=
  ∀ (s : State) (f : Frame) (d : PageBytes), ∃ t, exec (.pmWriteFrame f d) s = .next t ∧
    t = { s with block := t.block, uopResult := .none } ∧ t.block = { s.block with pm := t.block.pm } ∧
    (∀ i : Fin 256, Memory.read t.block.pm (f.toNat * 256 + i.val) = some d[i.val]) ∧
    ∀ a, a < f.toNat * 256 ∨ f.toNat * 256 + 256 ≤ a → Memory.read t.block.pm a = Memory.read s.block.pm a

/-- R190: the byte is returned and no state changes. -/
def Obligations.PmReadByteReturnsTheByte : Prop :=
  ∀ (s : State) (pa : PAddr), ∃ v, exec (.pmReadByte pa) s = .next { s with uopResult := .byte v } ∧
    ∀ w, Memory.read s.block.pm pa.toNat = some w → v = w

/-- R191, with the two's complement that the spec itself takes from general knowledge (G1): the number a byte is read as. -/
def Obligations.ByteReadsAsTwosComplement : Prop :=
  ∀ b : Byte, (b.toNat < 128 → sint8 b = b.toNat) ∧ (128 ≤ b.toNat → sint8 b = (b.toNat : Int) - 256) ∧
    sint8 b = b.toInt ∧ -128 ≤ sint8 b ∧ sint8 b ≤ 127

/-! ### 45_stats_and_csr.md -/

/-- R200, R201, R202: each record operation adds one to its counter, exactly, and changes nothing else. -/
def Obligations.StRecordsAddOne : Prop :=
  ∀ s : State,
    (s.block.statAddresses ≠ 0xFFFFFFFF#32 → ∃ t, exec .stRecordAccess s = .next t ∧
      t = { s with block := { s.block with statAddresses := t.block.statAddresses }, uopResult := .none } ∧
      t.block.statAddresses.toNat = s.block.statAddresses.toNat + 1) ∧
    (s.block.statTlbHits ≠ 0xFFFFFFFF#32 → ∃ t, exec .stRecordTlbHit s = .next t ∧
      t = { s with block := { s.block with statTlbHits := t.block.statTlbHits }, uopResult := .none } ∧
      t.block.statTlbHits.toNat = s.block.statTlbHits.toNat + 1) ∧
    (s.block.statPageFaults ≠ 0xFFFFFFFF#32 → ∃ t, exec .stRecordPageFault s = .next t ∧
      t = { s with block := { s.block with statPageFaults := t.block.statPageFaults }, uopResult := .none } ∧
      t.block.statPageFaults.toNat = s.block.statPageFaults.toNat + 1)

/-- The model's choice after 93_implementation_defined.md U6 and R10 (a) (notes/assumptions/6.md): an increment that would not
fit is a fault, never a wrap. -/
def Obligations.FullCounterFaults : Prop :=
  ∀ s : State,
    (s.block.statAddresses = 0xFFFFFFFF#32 → exec .stRecordAccess s = .fault .counterWouldWrap) ∧
    (s.block.statTlbHits = 0xFFFFFFFF#32 → exec .stRecordTlbHit s = .fault .counterWouldWrap) ∧
    (s.block.statPageFaults = 0xFFFFFFFF#32 → exec .stRecordPageFault s = .fault .counterWouldWrap)

/-- R205 with R48: what RDCSR answers for each number, halted or not, and that it changes no state. -/
def Obligations.RdcsrAnswersTheRegister : Prop :=
  ∀ (s : State) (arg : Arg),
    (arg.extractLsb' 0 8 = 0#8 → exec (.rdcsr arg) s =
      .next { s with responses := .csr s.block.statAddresses :: s.responses }) ∧
    (arg.extractLsb' 0 8 = 1#8 → exec (.rdcsr arg) s =
      .next { s with responses := .csr s.block.statTlbHits :: s.responses }) ∧
    (arg.extractLsb' 0 8 = 2#8 → exec (.rdcsr arg) s =
      .next { s with responses := .csr s.block.statPageFaults :: s.responses }) ∧
    (arg.extractLsb' 0 8 = 3#8 → ∃ d : BitVec 32, exec (.rdcsr arg) s =
        .next { s with responses := .csr d :: s.responses } ∧
      d.extractLsb' 0 1 = (if s.block.status.halted then 1#1 else 0#1) ∧
      (s.block.status.err = .none → d.extractLsb' 1 2 = 0#2) ∧
      (s.block.status.err = .bsReadFailure → d.extractLsb' 1 2 = 1#2) ∧
      (s.block.status.err = .ctrOverflow → d.extractLsb' 1 2 = 2#2) ∧ d.extractLsb' 3 29 = 0#29) ∧
    (4 ≤ (arg.extractLsb' 0 8).toNat → exec (.rdcsr arg) s =
      .next { s with responses := .errIllegal :: s.responses })

/-! ### 60_exceptions.md: the fatal path -/

/-- R221 with R216: a page read that fails sets HALTED and the code 1 and is answered ERR_FATAL; the environment's answer is used
up and nothing outside the block changes. What the rest of the block holds is unspecified (R222) and is not stated. -/
def Obligations.FailedReadTakesTheFatalPath : Prop :=
  ∀ (s : State) (arg : Arg), s.Live → s.Faults (arg.extractLsb' 8 8) → s.StoreFails (arg.extractLsb' 8 8) →
    ∃ t, exec (.xlate arg) s = .next t ∧ t.block.status = ⟨true, .bsReadFailure⟩ ∧
      t = { s with
        block := t.block, freeDraw := t.freeDraw, bsAnswers := s.bsAnswers.tail
        responses := .errFatal :: s.responses }

/-- R219 with R221: an XLATE that finds the clock at its last value sets HALTED and the code 2, is answered ERR_FATAL, and
changes nothing else. -/
def Obligations.ClockOverflowTakesTheFatalPath : Prop :=
  ∀ (s : State) (arg : Arg), s.block.status.halted = false → s.block.clock = 0xFFFFFFFF#32 →
    exec (.xlate arg) s = .next { s with
      block := { s.block with status := ⟨true, .ctrOverflow⟩ }, responses := .errFatal :: s.responses }

/-- R222: an XLATE while halted is answered ERR_FATAL and changes no state. -/
def Obligations.XlateWhileHaltedChangesNothing : Prop :=
  ∀ (s : State) (arg : Arg), s.block.status.halted = true →
    exec (.xlate arg) s = .next { s with responses := .errFatal :: s.responses }

/-- R223: nothing but the reset input clears `status`, and the first code stays. -/
def Obligations.OnlyResetLeavesTheHalt : Prop :=
  ∀ s t : State, step s = .next t → s.block.status.halted = true → ¬ s.TakesReset →
    t.block.status = s.block.status

/-! ### 70_reset_and_hazards.md: reset, and the step -/

/-- R245 with R46: the reset state. The content of physical memory is not stated: it is unspecified. -/
def Obligations.ResetLeavesTheEmptySystem : Prop :=
  (∀ i, State.reset.block.slot i = none) ∧ (∀ p, State.reset.block.ptEntry p = none) ∧
  (∀ f, State.reset.block.occEntry f = none) ∧ State.reset.block.fifoCursor = 0#7 ∧
  State.reset.block.clock = 0#32 ∧ State.reset.block.statAddresses = 0#32 ∧
  State.reset.block.statTlbHits = 0#32 ∧ State.reset.block.statPageFaults = 0#32 ∧
  State.reset.block.status = ⟨false, .none⟩

/-- R246: from any state, halted or not, a command in progress or not, the reset input gives the reset state of the block, and
no response. -/
def Obligations.ResetInputResetsFromAnyState : Prop :=
  ∀ (s : State) (rest : List HostInput), s.uopIssue = none → s.inputs = .rst :: rest →
    ∃ t, step s = .next t ∧ t.block = State.reset.block ∧ t.waiting = none ∧
      t = { s with block := t.block, waiting := none, inputs := rest, freeDraw := t.freeDraw }

/-- A step runs the instruction that the next word decodes to, on the state with that word taken. The model's choices: that the
host's words stand in a list from outside, and that a step with nothing to do leaves the state as it is
(notes/assumptions/10.md, 13.md); that a micro-operation can be issued on its own (notes/assumptions/8.md); that a step with
an instruction in progress leaves the state as it is (notes/assumptions/11.md). -/
def Obligations.StepRunsTheDecodedInstruction : Prop :=
  (∀ (s : State) (w : CmdWord) (rest : List HostInput) (i : Instr), s.uopIssue = none → s.waiting = none →
    s.inputs = .command w :: rest → decode (.command w) = .ok i → step s = exec i { s with inputs := rest }) ∧
  (∀ (s : State) (u : UopWord) (i : Instr), s.uopIssue = some u → decode (.uop u) = .ok i →
    step s = exec i { s with uopIssue := none }) ∧
  (∀ s : State, s.uopIssue = none → s.waiting ≠ none → (∀ rest, s.inputs ≠ .rst :: rest) → step s = .next s) ∧
  (∀ s : State, s.uopIssue = none → s.waiting = none → s.inputs = [] → step s = .next s)

/-- R94: every command gets exactly one response, or, while the store does not answer (R188, R252), is still in progress with
none; that the block is then unchanged is the model's choice (notes/assumptions/11.md). -/
def Obligations.OneResponsePerCommand : Prop :=
  ∀ (s t : State) (i : Instr), exec i s = .next t → i.isCommand = true → s.waiting = none →
    (t.waiting = none ∧ ∃ r, t.responses = r :: s.responses) ∨
    (t.waiting ≠ none ∧ t.responses = s.responses ∧ t.block = s.block)

/-! ### Whole-machine rules -/

/-- R101: no step issues a micro-operation on its own, and no host input can. -/
def Obligations.NoStepIssuesAMicroOperation : Prop :=
  ∀ s t : State, step s = .next t → t.uopIssue = none

/-- R24 with R121: the clock is advanced by exactly one by an XLATE that is answered OK, and by no other instruction. -/
def Obligations.OnlyXlateAdvancesTheClock : Prop :=
  ∀ (s t : State) (i : Instr), exec i s = .next t →
    ((∀ arg, i ≠ .xlate arg) → t.block.clock = s.block.clock) ∧
    (∀ k v pa, t.responses = .translated k v pa :: s.responses →
      t.block.clock.toNat = s.block.clock.toNat + 1 ∧
      t.block.statAddresses.toNat = s.block.statAddresses.toNat + 1)

/-- R206 and R24: the clock and the counters never decrease, but by reset and but for the unspecified values after a failed page
read. -/
def Obligations.CountersNeverDecrease : Prop :=
  ∀ s t : State, step s = .next t → ¬ s.TakesReset →
    (t.block.status.err = .bsReadFailure → s.block.status.halted = true) →
    s.block.clock ≤ t.block.clock ∧ s.block.statAddresses ≤ t.block.statAddresses ∧
    s.block.statTlbHits ≤ t.block.statTlbHits ∧ s.block.statPageFaults ≤ t.block.statPageFaults

/-- R164 (c): nothing moves a page between frames: after a step a page that was mapped is mapped to the same frame or not at all,
but for the unspecified values after a failed page read. -/
def Obligations.PagesNeverMove : Prop :=
  ∀ (s t : State) (p : Page) (f : Frame), s.Inv → step s = .next t → t.block.status.err ≠ .bsReadFailure →
    s.block.ptEntry p = some f → t.block.ptEntry p = some f ∨ t.block.ptEntry p = none

/-- R63: the backing store is never written, nor changed in size. -/
def Obligations.StoreIsReadOnly : Prop :=
  ∀ s t : State, step s = .next t → t.store = s.store

/-- R32, R47: which instruction can change which tag. A slot changes only by XLATE, TLB.LOOKUP, TLB.INSERT, TLB.INVALIDATE and
FA.ALLOCATE; a page-table entry only by XLATE, PT.MAP, PT.UNMAP and FA.ALLOCATE; an occupancy entry only by XLATE, FA.OCCUPY
and FA.ALLOCATE; a byte of physical memory only by XLATE and PM.WRITE_FRAME; the cursor only by XLATE and FA.ALLOCATE; each
counter only by XLATE and its record operation; the clock and `status` only by XLATE (R24, R28 to R31). -/
def Obligations.OnlyTheseChangeEachArray : Prop :=
  ∀ (s t : State) (i : Instr), exec i s = .next t → (∀ arg, i ≠ .xlate arg) →
    t.block.status = s.block.status ∧ t.block.clock = s.block.clock ∧
    ((∀ p, i ≠ .tlbLookup p) → (∀ p f c, i ≠ .tlbInsert p f c) → (∀ p, i ≠ .tlbInvalidate p) →
      (∀ p, i ≠ .faAllocate p) → ∀ j, t.block.slot j = s.block.slot j) ∧
    ((∀ p f, i ≠ .ptMap p f) → (∀ p, i ≠ .ptUnmap p) → (∀ p, i ≠ .faAllocate p) →
      ∀ q, t.block.ptEntry q = s.block.ptEntry q) ∧
    ((∀ f p, i ≠ .faOccupy f p) → (∀ p, i ≠ .faAllocate p) → ∀ g, t.block.occEntry g = s.block.occEntry g) ∧
    ((∀ f d, i ≠ .pmWriteFrame f d) → ∀ a, Memory.read t.block.pm a = Memory.read s.block.pm a) ∧
    ((∀ p, i ≠ .faAllocate p) → t.block.fifoCursor = s.block.fifoCursor) ∧
    (i ≠ .stRecordAccess → t.block.statAddresses = s.block.statAddresses) ∧
    (i ≠ .stRecordTlbHit → t.block.statTlbHits = s.block.statTlbHits) ∧
    (i ≠ .stRecordPageFault → t.block.statPageFaults = s.block.statPageFaults)

/-- Every step keeps physical memory in its canonical form and inside its 32,768 addresses, from every state that has it so,
micro-operations included. -/
def Obligations.StepKeepsMemoryCanonical : Prop :=
  ∀ s t : State, s.block.PmWf → step s = .next t → t.block.PmWf

/-! ### 10_state.md: the invariants -/

/-- The invariant of R35 to R45 holds at reset. -/
def Obligations.InvariantAtReset : Prop := State.reset.Inv

/-- Every step keeps the invariant, from every state that has it: R35 to R38 and R40 to R45 unless a page read has failed, that
`status` holds a code exactly while halted, and the clauses about the model's own form (notes/assumptions/2.md, 8.md,
11.md). -/
def Obligations.StepKeepsTheInvariant : Prop :=
  ∀ s t : State, s.Inv → step s = .next t → t.Inv

/-- From every state that has the invariant the step answers a next state: the block never stops, and no counter ever fails to
count (R61, R252, R10 (a)). -/
def Obligations.StepAlwaysAnswers : Prop :=
  ∀ s : State, s.Inv → ∃ t, step s = .next t

/-- R39: as many frames are occupied as pages are mapped, at most 128; at most 16 slots are valid; unless a page read has failed
(R222). -/
def Obligations.OccupiedFramesCountMappedPages : Prop :=
  ∀ s : State, s.Inv → s.block.status.err ≠ .bsReadFailure →
    s.block.occupiedCount = s.block.mappedCount ∧ s.block.occupiedCount ≤ 128 ∧ s.block.validCount ≤ 16

/-! ### The host's side: 30_encoding.md R103 to R106, 45_stats_and_csr.md R204 -/

/-- R106 with R92: the operand of an integer is its remainder modulo 2^32, and the logical address its remainder modulo 65,536,
negative or not. -/
def Obligations.IntegerBecomesItsRemainder : Prop :=
  ∀ z : Int, ∃ arg, decode (.command (xlateWord z)) = .ok (.xlate arg) ∧ (arg.toNat : Int) = z % 4294967296 ∧
    ((arg.extractLsb' 0 16).toNat : Int) = z % 65536

/-- R105: a bare integer is XLATE of it, and RDSTATS is RDCSR 1, RDCSR 0, RDCSR 2. -/
def Obligations.PseudoInstructionsExpand : Prop :=
  (∀ z : Int, (Line.bare z).commands = (Line.xlate z).commands) ∧
  ∃ a b c, Line.rdstats.commands = some [a, b, c] ∧ decode (.command a) = .ok (.rdcsr 1#32) ∧
    decode (.command b) = .ok (.rdcsr 0#32) ∧ decode (.command c) = .ok (.rdcsr 2#32)

/-- R104: the tokens of an address file become XLATE commands of their values, one each and in order, up to the first token that
is no integer: neither it nor anything after it becomes a command. Which tokens are integers is the model's reading
(notes/assumptions/14.md). -/
def Obligations.AddressFileStopsAtABadToken : Prop :=
  ∀ (good : List (List Char)) (values : List Int) (bad : List Char) (rest : List (List Char)),
    good.map readToken = values.map some → readToken bad = none →
    addressFile good = values.map xlateWord ∧ addressFile (good ++ bad :: rest) = values.map xlateWord

/-- R204: with an address processed the rates are 100 times the count over the addresses, and in a run they lie between 0 and
100, together too by R43; unless a page read has failed (R222). What a host reports with none processed is the free value RATE_AT_ZERO, and nothing is stated of it. -/
def Obligations.RatesAreBetweenZeroAndHundred : Prop :=
  ∀ s : State, s.Inv → s.block.status.err ≠ .bsReadFailure → s.block.statAddresses ≠ 0#32 →
    hitRate s.block * (s.block.statAddresses.toNat : Rat) = 100 * (s.block.statTlbHits.toNat : Rat) ∧
    faultRate s.block * (s.block.statAddresses.toNat : Rat) = 100 * (s.block.statPageFaults.toNat : Rat) ∧
    0 ≤ hitRate s.block ∧ 0 ≤ faultRate s.block ∧ hitRate s.block + faultRate s.block ≤ 100
end

