-- ==== Sys2Proof/Laws/State.lean ====
section
/-! SUPPORT. One lemma per field per update, so that no later proof unfolds a record update; and what reading an entry of an
array gives after a write of one. -/

namespace Sys2Proof.Machine

/-! #### setSlot -/

@[simp] theorem Block.setSlot_clock (b : Block) (i : Fin 16) (e : Option TlbEntry) : (b.setSlot i e).clock = b.clock := rfl

@[simp] theorem Block.setSlot_pt (b : Block) (i : Fin 16) (e : Option TlbEntry) : (b.setSlot i e).pt = b.pt := rfl

@[simp] theorem Block.setSlot_occ (b : Block) (i : Fin 16) (e : Option TlbEntry) : (b.setSlot i e).occ = b.occ := rfl

@[simp] theorem Block.setSlot_fifoCursor (b : Block) (i : Fin 16) (e : Option TlbEntry) : (b.setSlot i e).fifoCursor = b.fifoCursor := rfl

@[simp] theorem Block.setSlot_pm (b : Block) (i : Fin 16) (e : Option TlbEntry) : (b.setSlot i e).pm = b.pm := rfl

@[simp] theorem Block.setSlot_statAddresses (b : Block) (i : Fin 16) (e : Option TlbEntry) : (b.setSlot i e).statAddresses = b.statAddresses := rfl

@[simp] theorem Block.setSlot_statTlbHits (b : Block) (i : Fin 16) (e : Option TlbEntry) : (b.setSlot i e).statTlbHits = b.statTlbHits := rfl

@[simp] theorem Block.setSlot_statPageFaults (b : Block) (i : Fin 16) (e : Option TlbEntry) : (b.setSlot i e).statPageFaults = b.statPageFaults := rfl

@[simp] theorem Block.setSlot_status (b : Block) (i : Fin 16) (e : Option TlbEntry) : (b.setSlot i e).status = b.status := rfl

@[simp] theorem Block.setSlot_ptEntry (b : Block) (i : Fin 16) (e : Option TlbEntry) (q : Page) : (b.setSlot i e).ptEntry q = b.ptEntry q := rfl

@[simp] theorem Block.setSlot_occEntry (b : Block) (i : Fin 16) (e : Option TlbEntry) (g : Frame) : (b.setSlot i e).occEntry g = b.occEntry g := rfl

@[simp] theorem Block.setSlot_occupied (b : Block) (i : Fin 16) (e : Option TlbEntry) (g : Frame) : (b.setSlot i e).occupied g = b.occupied g := rfl

@[simp] theorem Block.setSlot_mapped (b : Block) (i : Fin 16) (e : Option TlbEntry) (q : Page) : (b.setSlot i e).mapped q = b.mapped q := rfl

@[simp] theorem Block.setSlot_halted (b : Block) (i : Fin 16) (e : Option TlbEntry) : (b.setSlot i e).halted = b.halted := rfl

/-! #### setPtEntry -/

@[simp] theorem Block.setPtEntry_tlb (b : Block) (p : Page) (e : Option Frame) : (b.setPtEntry p e).tlb = b.tlb := rfl

@[simp] theorem Block.setPtEntry_clock (b : Block) (p : Page) (e : Option Frame) : (b.setPtEntry p e).clock = b.clock := rfl

@[simp] theorem Block.setPtEntry_occ (b : Block) (p : Page) (e : Option Frame) : (b.setPtEntry p e).occ = b.occ := rfl

@[simp] theorem Block.setPtEntry_fifoCursor (b : Block) (p : Page) (e : Option Frame) : (b.setPtEntry p e).fifoCursor = b.fifoCursor := rfl

@[simp] theorem Block.setPtEntry_pm (b : Block) (p : Page) (e : Option Frame) : (b.setPtEntry p e).pm = b.pm := rfl

@[simp] theorem Block.setPtEntry_statAddresses (b : Block) (p : Page) (e : Option Frame) : (b.setPtEntry p e).statAddresses = b.statAddresses := rfl

@[simp] theorem Block.setPtEntry_statTlbHits (b : Block) (p : Page) (e : Option Frame) : (b.setPtEntry p e).statTlbHits = b.statTlbHits := rfl

@[simp] theorem Block.setPtEntry_statPageFaults (b : Block) (p : Page) (e : Option Frame) : (b.setPtEntry p e).statPageFaults = b.statPageFaults := rfl

@[simp] theorem Block.setPtEntry_status (b : Block) (p : Page) (e : Option Frame) : (b.setPtEntry p e).status = b.status := rfl

@[simp] theorem Block.setPtEntry_slot (b : Block) (p : Page) (e : Option Frame) (i' : Fin 16) : (b.setPtEntry p e).slot i' = b.slot i' := rfl

@[simp] theorem Block.setPtEntry_occEntry (b : Block) (p : Page) (e : Option Frame) (g : Frame) : (b.setPtEntry p e).occEntry g = b.occEntry g := rfl

@[simp] theorem Block.setPtEntry_occupied (b : Block) (p : Page) (e : Option Frame) (g : Frame) : (b.setPtEntry p e).occupied g = b.occupied g := rfl

@[simp] theorem Block.setPtEntry_valid (b : Block) (p : Page) (e : Option Frame) (i' : Fin 16) : (b.setPtEntry p e).valid i' = b.valid i' := rfl

@[simp] theorem Block.setPtEntry_halted (b : Block) (p : Page) (e : Option Frame) : (b.setPtEntry p e).halted = b.halted := rfl

/-! #### setOccEntry -/

@[simp] theorem Block.setOccEntry_tlb (b : Block) (f : Frame) (e : Option Page) : (b.setOccEntry f e).tlb = b.tlb := rfl

@[simp] theorem Block.setOccEntry_clock (b : Block) (f : Frame) (e : Option Page) : (b.setOccEntry f e).clock = b.clock := rfl

@[simp] theorem Block.setOccEntry_pt (b : Block) (f : Frame) (e : Option Page) : (b.setOccEntry f e).pt = b.pt := rfl

@[simp] theorem Block.setOccEntry_fifoCursor (b : Block) (f : Frame) (e : Option Page) : (b.setOccEntry f e).fifoCursor = b.fifoCursor := rfl

@[simp] theorem Block.setOccEntry_pm (b : Block) (f : Frame) (e : Option Page) : (b.setOccEntry f e).pm = b.pm := rfl

@[simp] theorem Block.setOccEntry_statAddresses (b : Block) (f : Frame) (e : Option Page) : (b.setOccEntry f e).statAddresses = b.statAddresses := rfl

@[simp] theorem Block.setOccEntry_statTlbHits (b : Block) (f : Frame) (e : Option Page) : (b.setOccEntry f e).statTlbHits = b.statTlbHits := rfl

@[simp] theorem Block.setOccEntry_statPageFaults (b : Block) (f : Frame) (e : Option Page) : (b.setOccEntry f e).statPageFaults = b.statPageFaults := rfl

@[simp] theorem Block.setOccEntry_status (b : Block) (f : Frame) (e : Option Page) : (b.setOccEntry f e).status = b.status := rfl

@[simp] theorem Block.setOccEntry_slot (b : Block) (f : Frame) (e : Option Page) (i' : Fin 16) : (b.setOccEntry f e).slot i' = b.slot i' := rfl

@[simp] theorem Block.setOccEntry_ptEntry (b : Block) (f : Frame) (e : Option Page) (q : Page) : (b.setOccEntry f e).ptEntry q = b.ptEntry q := rfl

@[simp] theorem Block.setOccEntry_valid (b : Block) (f : Frame) (e : Option Page) (i' : Fin 16) : (b.setOccEntry f e).valid i' = b.valid i' := rfl

@[simp] theorem Block.setOccEntry_mapped (b : Block) (f : Frame) (e : Option Page) (q : Page) : (b.setOccEntry f e).mapped q = b.mapped q := rfl

@[simp] theorem Block.setOccEntry_halted (b : Block) (f : Frame) (e : Option Page) : (b.setOccEntry f e).halted = b.halted := rfl

/-! #### insertTlb -/

@[simp] theorem insertTlb_clock (p : Page) (f : Frame) (t : Counter) (b : Block) : (insertTlb p f t b).clock = b.clock := rfl

@[simp] theorem insertTlb_pt (p : Page) (f : Frame) (t : Counter) (b : Block) : (insertTlb p f t b).pt = b.pt := rfl

@[simp] theorem insertTlb_occ (p : Page) (f : Frame) (t : Counter) (b : Block) : (insertTlb p f t b).occ = b.occ := rfl

@[simp] theorem insertTlb_fifoCursor (p : Page) (f : Frame) (t : Counter) (b : Block) : (insertTlb p f t b).fifoCursor = b.fifoCursor := rfl

@[simp] theorem insertTlb_pm (p : Page) (f : Frame) (t : Counter) (b : Block) : (insertTlb p f t b).pm = b.pm := rfl

@[simp] theorem insertTlb_statAddresses (p : Page) (f : Frame) (t : Counter) (b : Block) : (insertTlb p f t b).statAddresses = b.statAddresses := rfl

@[simp] theorem insertTlb_statTlbHits (p : Page) (f : Frame) (t : Counter) (b : Block) : (insertTlb p f t b).statTlbHits = b.statTlbHits := rfl

@[simp] theorem insertTlb_statPageFaults (p : Page) (f : Frame) (t : Counter) (b : Block) : (insertTlb p f t b).statPageFaults = b.statPageFaults := rfl

@[simp] theorem insertTlb_status (p : Page) (f : Frame) (t : Counter) (b : Block) : (insertTlb p f t b).status = b.status := rfl

@[simp] theorem insertTlb_ptEntry (p : Page) (f : Frame) (t : Counter) (b : Block) (q : Page) : (insertTlb p f t b).ptEntry q = b.ptEntry q := rfl

@[simp] theorem insertTlb_occEntry (p : Page) (f : Frame) (t : Counter) (b : Block) (g : Frame) : (insertTlb p f t b).occEntry g = b.occEntry g := rfl

@[simp] theorem insertTlb_occupied (p : Page) (f : Frame) (t : Counter) (b : Block) (g : Frame) : (insertTlb p f t b).occupied g = b.occupied g := rfl

@[simp] theorem insertTlb_mapped (p : Page) (f : Frame) (t : Counter) (b : Block) (q : Page) : (insertTlb p f t b).mapped q = b.mapped q := rfl

@[simp] theorem insertTlb_halted (p : Page) (f : Frame) (t : Counter) (b : Block) : (insertTlb p f t b).halted = b.halted := rfl

/-! #### invalidateTlb -/

@[simp] theorem invalidateTlb_clock (p : Page) (b : Block) : (invalidateTlb p b).clock = b.clock := rfl

@[simp] theorem invalidateTlb_pt (p : Page) (b : Block) : (invalidateTlb p b).pt = b.pt := rfl

@[simp] theorem invalidateTlb_occ (p : Page) (b : Block) : (invalidateTlb p b).occ = b.occ := rfl

@[simp] theorem invalidateTlb_fifoCursor (p : Page) (b : Block) : (invalidateTlb p b).fifoCursor = b.fifoCursor := rfl

@[simp] theorem invalidateTlb_pm (p : Page) (b : Block) : (invalidateTlb p b).pm = b.pm := rfl

@[simp] theorem invalidateTlb_statAddresses (p : Page) (b : Block) : (invalidateTlb p b).statAddresses = b.statAddresses := rfl

@[simp] theorem invalidateTlb_statTlbHits (p : Page) (b : Block) : (invalidateTlb p b).statTlbHits = b.statTlbHits := rfl

@[simp] theorem invalidateTlb_statPageFaults (p : Page) (b : Block) : (invalidateTlb p b).statPageFaults = b.statPageFaults := rfl

@[simp] theorem invalidateTlb_status (p : Page) (b : Block) : (invalidateTlb p b).status = b.status := rfl

@[simp] theorem invalidateTlb_ptEntry (p : Page) (b : Block) (q : Page) : (invalidateTlb p b).ptEntry q = b.ptEntry q := rfl

@[simp] theorem invalidateTlb_occEntry (p : Page) (b : Block) (g : Frame) : (invalidateTlb p b).occEntry g = b.occEntry g := rfl

@[simp] theorem invalidateTlb_occupied (p : Page) (b : Block) (g : Frame) : (invalidateTlb p b).occupied g = b.occupied g := rfl

@[simp] theorem invalidateTlb_mapped (p : Page) (b : Block) (q : Page) : (invalidateTlb p b).mapped q = b.mapped q := rfl

@[simp] theorem invalidateTlb_halted (p : Page) (b : Block) : (invalidateTlb p b).halted = b.halted := rfl

/-! #### mapPt -/

@[simp] theorem mapPt_tlb (p : Page) (f : Frame) (b : Block) : (mapPt p f b).tlb = b.tlb := rfl

@[simp] theorem mapPt_clock (p : Page) (f : Frame) (b : Block) : (mapPt p f b).clock = b.clock := rfl

@[simp] theorem mapPt_occ (p : Page) (f : Frame) (b : Block) : (mapPt p f b).occ = b.occ := rfl

@[simp] theorem mapPt_fifoCursor (p : Page) (f : Frame) (b : Block) : (mapPt p f b).fifoCursor = b.fifoCursor := rfl

@[simp] theorem mapPt_pm (p : Page) (f : Frame) (b : Block) : (mapPt p f b).pm = b.pm := rfl

@[simp] theorem mapPt_statAddresses (p : Page) (f : Frame) (b : Block) : (mapPt p f b).statAddresses = b.statAddresses := rfl

@[simp] theorem mapPt_statTlbHits (p : Page) (f : Frame) (b : Block) : (mapPt p f b).statTlbHits = b.statTlbHits := rfl

@[simp] theorem mapPt_statPageFaults (p : Page) (f : Frame) (b : Block) : (mapPt p f b).statPageFaults = b.statPageFaults := rfl

@[simp] theorem mapPt_status (p : Page) (f : Frame) (b : Block) : (mapPt p f b).status = b.status := rfl

@[simp] theorem mapPt_slot (p : Page) (f : Frame) (b : Block) (i' : Fin 16) : (mapPt p f b).slot i' = b.slot i' := rfl

@[simp] theorem mapPt_occEntry (p : Page) (f : Frame) (b : Block) (g : Frame) : (mapPt p f b).occEntry g = b.occEntry g := rfl

@[simp] theorem mapPt_occupied (p : Page) (f : Frame) (b : Block) (g : Frame) : (mapPt p f b).occupied g = b.occupied g := rfl

@[simp] theorem mapPt_valid (p : Page) (f : Frame) (b : Block) (i' : Fin 16) : (mapPt p f b).valid i' = b.valid i' := rfl

@[simp] theorem mapPt_halted (p : Page) (f : Frame) (b : Block) : (mapPt p f b).halted = b.halted := rfl

/-! #### unmapPt -/

@[simp] theorem unmapPt_tlb (p : Page) (b : Block) : (unmapPt p b).tlb = b.tlb := rfl

@[simp] theorem unmapPt_clock (p : Page) (b : Block) : (unmapPt p b).clock = b.clock := rfl

@[simp] theorem unmapPt_occ (p : Page) (b : Block) : (unmapPt p b).occ = b.occ := rfl

@[simp] theorem unmapPt_fifoCursor (p : Page) (b : Block) : (unmapPt p b).fifoCursor = b.fifoCursor := rfl

@[simp] theorem unmapPt_pm (p : Page) (b : Block) : (unmapPt p b).pm = b.pm := rfl

@[simp] theorem unmapPt_statAddresses (p : Page) (b : Block) : (unmapPt p b).statAddresses = b.statAddresses := rfl

@[simp] theorem unmapPt_statTlbHits (p : Page) (b : Block) : (unmapPt p b).statTlbHits = b.statTlbHits := rfl

@[simp] theorem unmapPt_statPageFaults (p : Page) (b : Block) : (unmapPt p b).statPageFaults = b.statPageFaults := rfl

@[simp] theorem unmapPt_status (p : Page) (b : Block) : (unmapPt p b).status = b.status := rfl

@[simp] theorem unmapPt_slot (p : Page) (b : Block) (i' : Fin 16) : (unmapPt p b).slot i' = b.slot i' := rfl

@[simp] theorem unmapPt_occEntry (p : Page) (b : Block) (g : Frame) : (unmapPt p b).occEntry g = b.occEntry g := rfl

@[simp] theorem unmapPt_occupied (p : Page) (b : Block) (g : Frame) : (unmapPt p b).occupied g = b.occupied g := rfl

@[simp] theorem unmapPt_valid (p : Page) (b : Block) (i' : Fin 16) : (unmapPt p b).valid i' = b.valid i' := rfl

@[simp] theorem unmapPt_halted (p : Page) (b : Block) : (unmapPt p b).halted = b.halted := rfl

/-! #### evictPage -/

@[simp] theorem evictPage_clock (p : Page) (b : Block) : (evictPage p b).clock = b.clock := rfl

@[simp] theorem evictPage_occ (p : Page) (b : Block) : (evictPage p b).occ = b.occ := rfl

@[simp] theorem evictPage_fifoCursor (p : Page) (b : Block) : (evictPage p b).fifoCursor = b.fifoCursor := rfl

@[simp] theorem evictPage_pm (p : Page) (b : Block) : (evictPage p b).pm = b.pm := rfl

@[simp] theorem evictPage_statAddresses (p : Page) (b : Block) : (evictPage p b).statAddresses = b.statAddresses := rfl

@[simp] theorem evictPage_statTlbHits (p : Page) (b : Block) : (evictPage p b).statTlbHits = b.statTlbHits := rfl

@[simp] theorem evictPage_statPageFaults (p : Page) (b : Block) : (evictPage p b).statPageFaults = b.statPageFaults := rfl

@[simp] theorem evictPage_status (p : Page) (b : Block) : (evictPage p b).status = b.status := rfl

@[simp] theorem evictPage_occEntry (p : Page) (b : Block) (g : Frame) : (evictPage p b).occEntry g = b.occEntry g := rfl

@[simp] theorem evictPage_occupied (p : Page) (b : Block) (g : Frame) : (evictPage p b).occupied g = b.occupied g := rfl

@[simp] theorem evictPage_halted (p : Page) (b : Block) : (evictPage p b).halted = b.halted := rfl

/-! #### occupyFrame -/

@[simp] theorem occupyFrame_tlb (f : Frame) (p : Page) (b : Block) : (occupyFrame f p b).tlb = b.tlb := rfl

@[simp] theorem occupyFrame_clock (f : Frame) (p : Page) (b : Block) : (occupyFrame f p b).clock = b.clock := rfl

@[simp] theorem occupyFrame_pt (f : Frame) (p : Page) (b : Block) : (occupyFrame f p b).pt = b.pt := rfl

@[simp] theorem occupyFrame_fifoCursor (f : Frame) (p : Page) (b : Block) : (occupyFrame f p b).fifoCursor = b.fifoCursor := rfl

@[simp] theorem occupyFrame_pm (f : Frame) (p : Page) (b : Block) : (occupyFrame f p b).pm = b.pm := rfl

@[simp] theorem occupyFrame_statAddresses (f : Frame) (p : Page) (b : Block) : (occupyFrame f p b).statAddresses = b.statAddresses := rfl

@[simp] theorem occupyFrame_statTlbHits (f : Frame) (p : Page) (b : Block) : (occupyFrame f p b).statTlbHits = b.statTlbHits := rfl

@[simp] theorem occupyFrame_statPageFaults (f : Frame) (p : Page) (b : Block) : (occupyFrame f p b).statPageFaults = b.statPageFaults := rfl

@[simp] theorem occupyFrame_status (f : Frame) (p : Page) (b : Block) : (occupyFrame f p b).status = b.status := rfl

@[simp] theorem occupyFrame_slot (f : Frame) (p : Page) (b : Block) (i' : Fin 16) : (occupyFrame f p b).slot i' = b.slot i' := rfl

@[simp] theorem occupyFrame_ptEntry (f : Frame) (p : Page) (b : Block) (q : Page) : (occupyFrame f p b).ptEntry q = b.ptEntry q := rfl

@[simp] theorem occupyFrame_valid (f : Frame) (p : Page) (b : Block) (i' : Fin 16) : (occupyFrame f p b).valid i' = b.valid i' := rfl

@[simp] theorem occupyFrame_mapped (f : Frame) (p : Page) (b : Block) (q : Page) : (occupyFrame f p b).mapped q = b.mapped q := rfl

@[simp] theorem occupyFrame_halted (f : Frame) (p : Page) (b : Block) : (occupyFrame f p b).halted = b.halted := rfl

/-! #### writeFrame -/

@[simp] theorem writeFrame_tlb (f : Frame) (d : PageBytes) (b : Block) : (writeFrame f d b).tlb = b.tlb := rfl

@[simp] theorem writeFrame_clock (f : Frame) (d : PageBytes) (b : Block) : (writeFrame f d b).clock = b.clock := rfl

@[simp] theorem writeFrame_pt (f : Frame) (d : PageBytes) (b : Block) : (writeFrame f d b).pt = b.pt := rfl

@[simp] theorem writeFrame_occ (f : Frame) (d : PageBytes) (b : Block) : (writeFrame f d b).occ = b.occ := rfl

@[simp] theorem writeFrame_fifoCursor (f : Frame) (d : PageBytes) (b : Block) : (writeFrame f d b).fifoCursor = b.fifoCursor := rfl

@[simp] theorem writeFrame_statAddresses (f : Frame) (d : PageBytes) (b : Block) : (writeFrame f d b).statAddresses = b.statAddresses := rfl

@[simp] theorem writeFrame_statTlbHits (f : Frame) (d : PageBytes) (b : Block) : (writeFrame f d b).statTlbHits = b.statTlbHits := rfl

@[simp] theorem writeFrame_statPageFaults (f : Frame) (d : PageBytes) (b : Block) : (writeFrame f d b).statPageFaults = b.statPageFaults := rfl

@[simp] theorem writeFrame_status (f : Frame) (d : PageBytes) (b : Block) : (writeFrame f d b).status = b.status := rfl

@[simp] theorem writeFrame_slot (f : Frame) (d : PageBytes) (b : Block) (i' : Fin 16) : (writeFrame f d b).slot i' = b.slot i' := rfl

@[simp] theorem writeFrame_ptEntry (f : Frame) (d : PageBytes) (b : Block) (q : Page) : (writeFrame f d b).ptEntry q = b.ptEntry q := rfl

@[simp] theorem writeFrame_occEntry (f : Frame) (d : PageBytes) (b : Block) (g : Frame) : (writeFrame f d b).occEntry g = b.occEntry g := rfl

@[simp] theorem writeFrame_occupied (f : Frame) (d : PageBytes) (b : Block) (g : Frame) : (writeFrame f d b).occupied g = b.occupied g := rfl

@[simp] theorem writeFrame_valid (f : Frame) (d : PageBytes) (b : Block) (i' : Fin 16) : (writeFrame f d b).valid i' = b.valid i' := rfl

@[simp] theorem writeFrame_mapped (f : Frame) (d : PageBytes) (b : Block) (q : Page) : (writeFrame f d b).mapped q = b.mapped q := rfl

@[simp] theorem writeFrame_halted (f : Frame) (d : PageBytes) (b : Block) : (writeFrame f d b).halted = b.halted := rfl

/-! #### loadPage -/

@[simp] theorem loadPage_tlb (p : Page) (f : Frame) (d : PageBytes) (b : Block) : (loadPage p f d b).tlb = b.tlb := rfl

@[simp] theorem loadPage_clock (p : Page) (f : Frame) (d : PageBytes) (b : Block) : (loadPage p f d b).clock = b.clock := rfl

@[simp] theorem loadPage_fifoCursor (p : Page) (f : Frame) (d : PageBytes) (b : Block) : (loadPage p f d b).fifoCursor = b.fifoCursor := rfl

@[simp] theorem loadPage_statAddresses (p : Page) (f : Frame) (d : PageBytes) (b : Block) : (loadPage p f d b).statAddresses = b.statAddresses := rfl

@[simp] theorem loadPage_statTlbHits (p : Page) (f : Frame) (d : PageBytes) (b : Block) : (loadPage p f d b).statTlbHits = b.statTlbHits := rfl

@[simp] theorem loadPage_statPageFaults (p : Page) (f : Frame) (d : PageBytes) (b : Block) : (loadPage p f d b).statPageFaults = b.statPageFaults := rfl

@[simp] theorem loadPage_status (p : Page) (f : Frame) (d : PageBytes) (b : Block) : (loadPage p f d b).status = b.status := rfl

@[simp] theorem loadPage_slot (p : Page) (f : Frame) (d : PageBytes) (b : Block) (i' : Fin 16) : (loadPage p f d b).slot i' = b.slot i' := rfl

@[simp] theorem loadPage_valid (p : Page) (f : Frame) (d : PageBytes) (b : Block) (i' : Fin 16) : (loadPage p f d b).valid i' = b.valid i' := rfl

@[simp] theorem loadPage_halted (p : Page) (f : Frame) (d : PageBytes) (b : Block) : (loadPage p f d b).halted = b.halted := rfl

/-! #### State.withBlock -/

@[simp] theorem State.withBlock_block (s : State) (b : Block) : (s.withBlock b).block = b := rfl

@[simp] theorem State.withBlock_inputs (s : State) (b : Block) : (s.withBlock b).inputs = s.inputs := rfl

@[simp] theorem State.withBlock_responses (s : State) (b : Block) : (s.withBlock b).responses = s.responses := rfl

@[simp] theorem State.withBlock_waiting (s : State) (b : Block) : (s.withBlock b).waiting = s.waiting := rfl

@[simp] theorem State.withBlock_store (s : State) (b : Block) : (s.withBlock b).store = s.store := rfl

@[simp] theorem State.withBlock_bsAnswers (s : State) (b : Block) : (s.withBlock b).bsAnswers = s.bsAnswers := rfl

@[simp] theorem State.withBlock_uopIssue (s : State) (b : Block) : (s.withBlock b).uopIssue = s.uopIssue := rfl

@[simp] theorem State.withBlock_uopResult (s : State) (b : Block) : (s.withBlock b).uopResult = s.uopResult := rfl

@[simp] theorem State.withBlock_freeDraw (s : State) (b : Block) : (s.withBlock b).freeDraw = s.freeDraw := rfl

/-! #### respond -/

@[simp] theorem respond_block (r : Response) (s : State) : (respond r s).block = s.block := rfl

@[simp] theorem respond_inputs (r : Response) (s : State) : (respond r s).inputs = s.inputs := rfl

@[simp] theorem respond_responses (r : Response) (s : State) : (respond r s).responses = r :: s.responses := rfl

@[simp] theorem respond_waiting (r : Response) (s : State) : (respond r s).waiting = s.waiting := rfl

@[simp] theorem respond_store (r : Response) (s : State) : (respond r s).store = s.store := rfl

@[simp] theorem respond_bsAnswers (r : Response) (s : State) : (respond r s).bsAnswers = s.bsAnswers := rfl

@[simp] theorem respond_uopIssue (r : Response) (s : State) : (respond r s).uopIssue = s.uopIssue := rfl

@[simp] theorem respond_uopResult (r : Response) (s : State) : (respond r s).uopResult = s.uopResult := rfl

@[simp] theorem respond_freeDraw (r : Response) (s : State) : (respond r s).freeDraw = s.freeDraw := rfl

/-! #### State.halt -/

@[simp] theorem State.halt_block (s : State) (c : Err) : (s.halt c).block = { s.block with status := { halted := true, err := c } } := rfl

@[simp] theorem State.halt_inputs (s : State) (c : Err) : (s.halt c).inputs = s.inputs := rfl

@[simp] theorem State.halt_responses (s : State) (c : Err) : (s.halt c).responses = s.responses := rfl

@[simp] theorem State.halt_waiting (s : State) (c : Err) : (s.halt c).waiting = s.waiting := rfl

@[simp] theorem State.halt_store (s : State) (c : Err) : (s.halt c).store = s.store := rfl

@[simp] theorem State.halt_bsAnswers (s : State) (c : Err) : (s.halt c).bsAnswers = s.bsAnswers := rfl

@[simp] theorem State.halt_uopIssue (s : State) (c : Err) : (s.halt c).uopIssue = s.uopIssue := rfl

@[simp] theorem State.halt_uopResult (s : State) (c : Err) : (s.halt c).uopResult = s.uopResult := rfl

@[simp] theorem State.halt_freeDraw (s : State) (c : Err) : (s.halt c).freeDraw = s.freeDraw := rfl

/-! #### State.wreck -/

@[simp] theorem State.wreck_inputs (s : State) : s.wreck.inputs = s.inputs := rfl

@[simp] theorem State.wreck_responses (s : State) : s.wreck.responses = s.responses := rfl

@[simp] theorem State.wreck_waiting (s : State) : s.wreck.waiting = s.waiting := rfl

@[simp] theorem State.wreck_store (s : State) : s.wreck.store = s.store := rfl

@[simp] theorem State.wreck_bsAnswers (s : State) : s.wreck.bsAnswers = s.bsAnswers := rfl

@[simp] theorem State.wreck_uopIssue (s : State) : s.wreck.uopIssue = s.uopIssue := rfl

@[simp] theorem State.wreck_uopResult (s : State) : s.wreck.uopResult = s.uopResult := rfl

@[simp] theorem State.wreck_freeDraw (s : State) : s.wreck.freeDraw = s.freeDraw + 1 := rfl

/-! #### applyReset -/

@[simp] theorem applyReset_block (s : State) : (applyReset s).block = Block.reset := rfl

@[simp] theorem applyReset_inputs (s : State) : (applyReset s).inputs = s.inputs := rfl

@[simp] theorem applyReset_responses (s : State) : (applyReset s).responses = s.responses := rfl

@[simp] theorem applyReset_waiting (s : State) : (applyReset s).waiting = none := rfl

@[simp] theorem applyReset_store (s : State) : (applyReset s).store = s.store := rfl

@[simp] theorem applyReset_bsAnswers (s : State) : (applyReset s).bsAnswers = s.bsAnswers := rfl

@[simp] theorem applyReset_uopIssue (s : State) : (applyReset s).uopIssue = none := rfl

@[simp] theorem applyReset_uopResult (s : State) : (applyReset s).uopResult = s.uopResult := rfl

@[simp] theorem applyReset_freeDraw (s : State) : (applyReset s).freeDraw = s.freeDraw + 1 := rfl

@[simp] theorem State.wreck_pm (s : State) : s.wreck.block.pm = [] := rfl

@[simp] theorem State.wreck_status (s : State) : s.wreck.block.status = s.block.status := rfl

/-! #### raiseFatal -/

@[simp] theorem raiseFatal_inputs (c : Err) (s : State) : (raiseFatal c s).inputs = s.inputs := by cases c <;> rfl

@[simp] theorem raiseFatal_waiting (c : Err) (s : State) : (raiseFatal c s).waiting = s.waiting := by cases c <;> rfl

@[simp] theorem raiseFatal_store (c : Err) (s : State) : (raiseFatal c s).store = s.store := by cases c <;> rfl

@[simp] theorem raiseFatal_bsAnswers (c : Err) (s : State) : (raiseFatal c s).bsAnswers = s.bsAnswers := by cases c <;> rfl

@[simp] theorem raiseFatal_uopIssue (c : Err) (s : State) : (raiseFatal c s).uopIssue = s.uopIssue := by cases c <;> rfl

@[simp] theorem raiseFatal_uopResult (c : Err) (s : State) : (raiseFatal c s).uopResult = s.uopResult := by cases c <;> rfl

@[simp] theorem raiseFatal_responses (c : Err) (s : State) :
    (raiseFatal c s).responses = .errFatal :: s.responses := by cases c <;> rfl

@[simp] theorem raiseFatal_status (c : Err) (s : State) :
    (raiseFatal c s).block.status = { halted := true, err := c } := by cases c <;> rfl

/-! #### Reading one entry after a write -/

theorem Block.slot_setSlot (b : Block) (i j : Fin 16) (e : Option TlbEntry) :
    (b.setSlot i e).slot j = if i = j then e else b.slot j := by
  simp only [Block.slot, Block.setSlot, Vector.getElem_set, Fin.ext_iff]

theorem Block.ptEntry_setPtEntry (b : Block) (p q : Page) (e : Option Frame) :
    (b.setPtEntry p e).ptEntry q = if p = q then e else b.ptEntry q := by
  simp only [Block.ptEntry, Block.setPtEntry, Vector.getElem_set, BitVec.toNat_eq]

theorem Block.occEntry_setOccEntry (b : Block) (f g : Frame) (e : Option Page) :
    (b.setOccEntry f e).occEntry g = if f = g then e else b.occEntry g := by
  simp only [Block.occEntry, Block.setOccEntry, Vector.getElem_set, BitVec.toNat_eq]

/-- Two blocks with the same entries and scalars are the same block. -/
theorem Block.ext_entries {b c : Block} (hslot : ∀ i, b.slot i = c.slot i) (hpt : ∀ p, b.ptEntry p = c.ptEntry p)
    (hocc : ∀ f, b.occEntry f = c.occEntry f) (hclock : b.clock = c.clock) (hcur : b.fifoCursor = c.fifoCursor)
    (hpm : b.pm = c.pm) (ha : b.statAddresses = c.statAddresses) (hh : b.statTlbHits = c.statTlbHits)
    (hf : b.statPageFaults = c.statPageFaults) (hs : b.status = c.status) : b = c := by
  have h1 : b.tlb = c.tlb := Vector.ext fun i hi => hslot ⟨i, hi⟩
  have h2 : b.pt = c.pt := Vector.ext fun i hi => by
    have h := hpt (BitVec.ofNatLT i hi)
    simpa [Block.ptEntry] using h
  have h3 : b.occ = c.occ := Vector.ext fun i hi => by
    have h := hocc (BitVec.ofNatLT i hi)
    simpa [Block.occEntry] using h
  cases b
  cases c
  simp_all

@[simp] theorem Block.reset_slot (i : Fin 16) : Block.reset.slot i = none := by
  simp [Block.reset, Block.slot]

@[simp] theorem Block.reset_ptEntry (p : Page) : Block.reset.ptEntry p = none := by
  simp [Block.reset, Block.ptEntry]

@[simp] theorem Block.reset_occEntry (f : Frame) : Block.reset.occEntry f = none := by
  simp [Block.reset, Block.occEntry]

end Sys2Proof.Machine
end

