-- ==== Sys2Proof/Laws/Memory.lean ====
section
/-! SUPPORT. The laws of byte memory: what a read gives after a write, and that a write keeps the canonical form; the same for
a frame of physical memory. -/

namespace Sys2Proof.Machine

/-! ### The canonical form -/

theorem Memory.wf_iff_pairwise (m : Memory) : Memory.wf m = true ↔ m.Pairwise fun c d => c.1 < d.1 := by
  induction m with
  | nil => simp [Memory.wf]
  | cons c m ih =>
    cases m with
    | nil => simp [Memory.wf]
    | cons d m =>
      rw [Memory.wf, Bool.and_eq_true, ih, decide_eq_true_iff]
      constructor
      · rintro ⟨hcd, hp⟩
        refine List.Pairwise.cons (fun e he => ?_) hp
        rcases List.mem_cons.mp he with rfl | he
        · exact hcd
        · exact Nat.lt_trans hcd ((List.pairwise_cons.mp hp).1 e he)
      · intro hp
        have h := List.pairwise_cons.mp hp
        exact ⟨h.1 d List.mem_cons_self, h.2⟩

theorem Memory.mem_cells {a : Nat} {vs : List Byte} {c : Host.Cell} (h : c ∈ Memory.cells a vs) :
    a ≤ c.1 ∧ c.1 < a + vs.length := by
  induction vs generalizing a with
  | nil => simp [Memory.cells] at h
  | cons v vs ih =>
    rcases List.mem_cons.mp h with rfl | h
    · simp
    · have := ih h
      simp only [List.length_cons]
      omega

theorem Memory.pairwise_cells (a : Nat) (vs : List Byte) :
    (Memory.cells a vs).Pairwise fun c d => c.1 < d.1 := by
  induction vs generalizing a with
  | nil => exact List.Pairwise.nil
  | cons v vs ih =>
    refine List.Pairwise.cons (fun d hd => ?_) (ih (a + 1))
    have := Memory.mem_cells hd
    simp only
    omega

/-- A write keeps the canonical form. -/
theorem Memory.wf_write {m : Memory} (a : Nat) (vs : List Byte) (h : Memory.wf m = true) :
    Memory.wf (Memory.write m a vs) = true := by
  rw [Memory.wf_iff_pairwise] at h ⊢
  unfold Memory.write
  rw [List.append_assoc, List.pairwise_append, List.pairwise_append]
  refine ⟨h.filter _, ⟨Memory.pairwise_cells a vs, h.filter _, ?_⟩, ?_⟩
  · intro c hc d hd
    have h1 := Memory.mem_cells hc
    have h2 : a + vs.length ≤ d.1 := by simpa using (List.mem_filter.mp hd).2
    omega
  · intro c hc d hd
    have h1 : c.1 < a := by simpa using (List.mem_filter.mp hc).2
    rcases List.mem_append.mp hd with hd | hd
    · have := Memory.mem_cells hd
      omega
    · have h2 : a + vs.length ≤ d.1 := by simpa using (List.mem_filter.mp hd).2
      omega

/-- A write inside the limit keeps the memory inside it. -/
theorem Memory.within_write {m : Memory} {limit a : Nat} {vs : List Byte} (h : Memory.within limit m = true)
    (ha : a + vs.length ≤ limit) : Memory.within limit (Memory.write m a vs) = true := by
  simp only [Memory.within, List.all_eq_true, decide_eq_true_iff] at h ⊢
  intro c hc
  simp only [Memory.write, List.mem_append, List.mem_filter] at hc
  rcases hc with (hc | hc) | hc
  · exact h c hc.1
  · have := Memory.mem_cells hc
    omega
  · exact h c hc.1

/-! ### Read after write -/

theorem Memory.read_append (m n : Memory) (x : Nat) :
    Memory.read (m ++ n) x = (Memory.read m x).or (Memory.read n x) := by
  induction m with
  | nil => simp [Memory.read]
  | cons c m ih =>
    rw [List.cons_append, Memory.read, Memory.read]
    split
    · simp
    · exact ih

theorem Memory.read_cells (a : Nat) (vs : List Byte) (x : Nat) :
    Memory.read (Memory.cells a vs) x = if a ≤ x then vs[x - a]? else none := by
  induction vs generalizing a with
  | nil => simp [Memory.cells, Memory.read]
  | cons v vs ih =>
    rw [Memory.cells, Memory.read, ih]
    rcases Nat.lt_trichotomy a x with h | h | h
    · have hx : x - a = x - (a + 1) + 1 := by omega
      rw [if_neg (by simp only; omega), if_pos (by omega), if_pos (by omega), hx, List.getElem?_cons_succ]
    · subst h
      simp
    · rw [if_neg (by simp only; omega), if_neg (by omega), if_neg (by omega)]

theorem Memory.read_filter (m : Memory) (p : Nat → Bool) (x : Nat) :
    Memory.read (m.filter fun c => p c.1) x = if p x then Memory.read m x else none := by
  induction m with
  | nil => simp [Memory.read]
  | cons c m ih =>
    rw [List.filter_cons]
    by_cases hc : c.1 = x
    · subst hc
      by_cases hp : p c.1
      · simp [hp, Memory.read]
      · simpa [hp] using ih
    · by_cases hp : p c.1
      · rw [if_pos hp, Memory.read, if_neg hc, ih, Memory.read, if_neg hc]
      · rw [if_neg hp, ih, Memory.read, if_neg hc]

/-- What a byte reads as after a write: the byte written there, else what it read as before. -/
theorem Memory.read_write (m : Memory) (a : Nat) (vs : List Byte) (x : Nat) :
    Memory.read (Memory.write m a vs) x =
      if a ≤ x ∧ x < a + vs.length then vs[x - a]? else Memory.read m x := by
  have h1 := Memory.read_filter m (fun y => decide (y < a)) x
  have h2 := Memory.read_filter m (fun y => decide (a + vs.length ≤ y)) x
  simp only [decide_eq_true_iff] at h1 h2
  rw [Memory.write, Memory.read_append, Memory.read_append, Memory.read_cells, h1, h2]
  rcases Nat.lt_or_ge x a with hlo | hlo
  · have ha : ¬ a ≤ x := by omega
    have hb : ¬ a + vs.length ≤ x := by omega
    simp [hlo, ha, hb]
  · have ha : ¬ x < a := by omega
    rcases Nat.lt_or_ge x (a + vs.length) with hhi | hhi
    · have hb : ¬ a + vs.length ≤ x := by omega
      simp [hlo, ha, hb, hhi]
    · have hb : ¬ x < a + vs.length := by omega
      have hn : vs[x - a]? = none := List.getElem?_eq_none (by omega)
      simp [hlo, ha, hb, hhi, hn]

/-! ### Addresses -/

theorem physicalAddress_toNat (f : Frame) (i : Offset) :
    (physicalAddress f i).toNat = f.toNat * 256 + i.toNat := by
  have hi := i.isLt
  unfold physicalAddress
  rw [BitVec.toNat_append, Nat.shiftLeft_eq, Nat.mul_comm, ← Nat.two_pow_add_eq_or_of_lt hi]

theorem physicalAddress_inj {f g : Frame} {i j : Offset} :
    physicalAddress f i = physicalAddress g j ↔ f = g ∧ i = j := by
  constructor
  · intro h
    have h' := congrArg BitVec.toNat h
    rw [physicalAddress_toNat, physicalAddress_toNat] at h'
    have hi := i.isLt
    have hj := j.isLt
    exact ⟨BitVec.eq_of_toNat_eq (by omega), BitVec.eq_of_toNat_eq (by omega)⟩
  · rintro ⟨rfl, rfl⟩
    rfl

theorem storeOffset_toNat (p : Page) (i : Offset) :
    (storeOffset p i).toNat = p.toNat * 256 + i.toNat := by
  have hi := i.isLt
  unfold storeOffset
  rw [BitVec.toNat_append, Nat.shiftLeft_eq, Nat.mul_comm, ← Nat.two_pow_add_eq_or_of_lt hi]

theorem pageOf_toNat (la : LAddr) : (pageOf la).toNat = la.toNat / 256 := by
  have := la.isLt
  simp [pageOf, BitVec.extractLsb'_toNat, Nat.shiftRight_eq_div_pow]
  omega

theorem offsetOf_toNat (la : LAddr) : (offsetOf la).toNat = la.toNat % 256 := by
  simp [offsetOf, BitVec.extractLsb'_toNat]

/-- A logical address is its page and its offset put together. -/
theorem storeOffset_pageOf_offsetOf (la : LAddr) : storeOffset (pageOf la) (offsetOf la) = la := by
  apply BitVec.eq_of_toNat_eq
  rw [storeOffset_toNat, pageOf_toNat, offsetOf_toNat]
  omega

/-- The page of an operand, read from the operand itself (30_encoding.md R92). -/
theorem pageOf_logicalAddress (arg : Arg) : pageOf (logicalAddress arg) = arg.extractLsb' 8 8 := by
  apply BitVec.eq_of_toNat_eq
  simp only [pageOf, logicalAddress, BitVec.extractLsb'_toNat, Nat.shiftRight_eq_div_pow]
  omega

/-- The offset of an operand, read from the operand itself (30_encoding.md R92). -/
theorem offsetOf_logicalAddress (arg : Arg) : offsetOf (logicalAddress arg) = arg.extractLsb' 0 8 := by
  apply BitVec.eq_of_toNat_eq
  simp only [offsetOf, logicalAddress, BitVec.extractLsb'_toNat, Nat.shiftRight_eq_div_pow]
  omega

theorem offset_physicalAddress (f : Frame) (i : Offset) : (physicalAddress f i).extractLsb' 0 8 = i := by
  apply BitVec.eq_of_toNat_eq
  have hi := i.isLt
  simp [BitVec.extractLsb'_toNat, physicalAddress_toNat]
  omega

theorem frameOf_physicalAddress (f : Frame) (i : Offset) : frameOf (physicalAddress f i) = f := by
  apply BitVec.eq_of_toNat_eq
  have hi := i.isLt
  have hf := f.isLt
  simp [frameOf, BitVec.extractLsb'_toNat, Nat.shiftRight_eq_div_pow, physicalAddress_toNat]
  omega

/-- What is kept of an XLATE in progress has the same logical address. -/
@[simp] theorem logicalAddress_setWidth (la : LAddr) : logicalAddress (la.setWidth 32) = la := by
  apply BitVec.eq_of_toNat_eq
  have := la.isLt
  simp [logicalAddress, BitVec.extractLsb'_toNat]
  omega

/-! ### Frames of physical memory -/

/-- A fill writes the frame's 256 bytes and no other. -/
theorem read_writeFrame (f g : Frame) (i : Offset) (d : PageBytes) (b : Block) :
    Memory.read (writeFrame f d b).pm (physicalAddress g i).toNat =
      if f = g then some (d[i.toNat]'i.isLt) else Memory.read b.pm (physicalAddress g i).toNat := by
  have hi := i.isLt
  have h0 : (0#8).toNat = 0 := rfl
  simp only [writeFrame, Memory.read_write, physicalAddress_toNat, h0, Vector.length_toList]
  by_cases h : f = g
  · subst h
    rw [if_pos (by omega), if_pos rfl]
    have hx : f.toNat * 256 + i.toNat - (f.toNat * 256 + 0) = i.toNat := by omega
    rw [hx, List.getElem?_eq_getElem (by simpa using hi)]
    simp
  · have hne : f.toNat ≠ g.toNat := fun hh => h (BitVec.eq_of_toNat_eq hh)
    rw [if_neg (by omega), if_neg h]

theorem writeFrame_pmWf {f : Frame} {d : PageBytes} {b : Block} (h : b.PmWf) : (writeFrame f d b).PmWf := by
  have hf := f.isLt
  refine ⟨Memory.wf_write _ _ h.1, Memory.within_write h.2 ?_⟩
  have h0 : (0#8).toNat = 0 := rfl
  rw [physicalAddress_toNat, Vector.length_toList, h0, Config.pmBytes]
  omega

/-- Byte `i` of a page read is the store's byte at that offset of the page. -/
theorem Store.page_getElem (st : Store) (p : Page) (i : Offset) :
    (st.page p)[i.toNat]'i.isLt = st.byte (storeOffset p i) := by
  rw [Store.page, Vector.getElem_ofFn]
  rfl

end Sys2Proof.Machine
end

