-- ==== Sys2Proof/Laws/Tlb.lean ====
section
/-! SUPPORT. One lemma per TLB operation that says what it can do, in terms of the slots. -/

namespace Sys2Proof.Machine

/-! ### The scan -/

/-- A scan answers the value at an index with no value below it. -/
theorem lowest_eq_some {α : Type} {n : Nat} {f : Fin n → Option α} {a : α} :
    lowest f = some a ↔ ∃ i, f i = some a ∧ ∀ j < i, f j = none := by
  induction n with
  | zero => simp [lowest]
  | succ n ih =>
    unfold lowest
    cases h : f 0 with
    | some b =>
      constructor
      · intro hb
        exact ⟨0, by rw [h]; exact hb, fun j hj => absurd hj (Fin.not_lt_zero j)⟩
      · rintro ⟨i, hi, hlow⟩
        cases i using Fin.cases with
        | zero => rw [← hi, h]
        | succ i =>
          have := hlow 0 (Fin.succ_pos i)
          simp [h] at this
    | none =>
      simp only [ih]
      constructor
      · rintro ⟨i, hi, hlow⟩
        refine ⟨i.succ, hi, fun j hj => ?_⟩
        cases j using Fin.cases with
        | zero => exact h
        | succ j => exact hlow j (Fin.succ_lt_succ_iff.mp hj)
      · rintro ⟨i, hi, hlow⟩
        cases i using Fin.cases with
        | zero => simp [h] at hi
        | succ i => exact ⟨i, hi, fun j hj => hlow j.succ (Fin.succ_lt_succ_iff.mpr hj)⟩

/-- A scan finds nothing exactly when no index has a value. -/
theorem lowest_eq_none {α : Type} {n : Nat} {f : Fin n → Option α} : lowest f = none ↔ ∀ i, f i = none := by
  induction n with
  | zero => simp [lowest]
  | succ n ih =>
    unfold lowest
    rw [Fin.forall_fin_succ]
    cases h : f 0 with
    | some b => simp
    | none => simp [ih]

/-- The lowest invalid slot: it is invalid and every lower slot is valid. -/
theorem invalidSlot_eq_some {b : Block} {j : Fin 16} :
    invalidSlot b = some j ↔ b.slot j = none ∧ ∀ i < j, b.slot i ≠ none := by
  have hv : ∀ i, (if b.valid i then none else some i) = some j ↔ i = j ∧ b.slot i = none := fun i => by
    cases h : b.slot i <;> simp [Block.valid, h]
  have hn : ∀ i, (if b.valid i then none else some i) = none ↔ b.slot i ≠ none := fun i => by
    cases h : b.slot i <;> simp [Block.valid, h]
  simp only [invalidSlot, lowest_eq_some, hv, hn]
  constructor
  · rintro ⟨i, ⟨rfl, h⟩, hlow⟩
    exact ⟨h, hlow⟩
  · rintro ⟨h, hlow⟩
    exact ⟨j, ⟨rfl, h⟩, hlow⟩

/-- There is no invalid slot exactly when all 16 are valid. -/
theorem invalidSlot_eq_none {b : Block} : invalidSlot b = none ↔ ∀ i, b.slot i ≠ none := by
  have hn : ∀ i, (if b.valid i then none else some i) = none ↔ b.slot i ≠ none := fun i => by
    cases h : b.slot i <;> simp [Block.valid, h]
  simp only [invalidSlot, lowest_eq_none, hn]

/-! ### TLB.LOOKUP -/

theorem tlbMatch_eq_some {b : Block} {p : Page} {i : Fin 16} {e : TlbEntry} :
    tlbMatch b p i = some e ↔ b.slot i = some e ∧ e.page = p := by
  simp [tlbMatch, Option.filter_eq_some_iff]

theorem tlbMatch_eq_none {b : Block} {p : Page} {i : Fin 16} :
    tlbMatch b p i = none ↔ ∀ e, b.slot i = some e → e.page ≠ p := by
  simp [tlbMatch, Option.filter_eq_none_iff]

/-- The slot found is valid, holds the page, and is the lowest that does. -/
theorem tlbFind_eq_some {b : Block} {p : Page} {j : Fin 16} {e : TlbEntry} :
    tlbFind b p = some (j, e) ↔
      (b.slot j = some e ∧ e.page = p) ∧ ∀ i < j, ∀ d, b.slot i = some d → d.page ≠ p := by
  simp only [tlbFind, lowest_eq_some, Option.map_eq_some_iff, Option.map_eq_none_iff, tlbMatch_eq_none,
    tlbMatch_eq_some, Prod.mk.injEq]
  constructor
  · rintro ⟨i, ⟨a, ⟨h, rfl, rfl⟩⟩, hlt⟩
    exact ⟨h, hlt⟩
  · rintro ⟨h, hlt⟩
    exact ⟨j, ⟨e, h, rfl, rfl⟩, hlt⟩

/-- Nothing is found exactly when no valid slot holds the page. -/
theorem tlbFind_eq_none {b : Block} {p : Page} :
    tlbFind b p = none ↔ ∀ i e, b.slot i = some e → e.page ≠ p := by
  simp only [tlbFind, lowest_eq_none, Option.map_eq_none_iff, tlbMatch_eq_none]

/-- Everything TLB.LOOKUP can do: a miss that changes nothing, or a hit in the lowest matching slot, which is stamped. -/
theorem lookupTlb_cases (p : Page) (b : Block) :
    ((∀ i e, b.slot i = some e → e.page ≠ p) ∧ lookupTlb p b = (none, b)) ∨
    ∃ j e, b.slot j = some e ∧ e.page = p ∧ (∀ i < j, ∀ d, b.slot i = some d → d.page ≠ p) ∧
      lookupTlb p b = (some e.frame, b.setSlot j (some { e with stamp := b.clock })) := by
  cases h : tlbFind b p with
  | none => exact .inl ⟨tlbFind_eq_none.mp h, by rw [lookupTlb, h]⟩
  | some x =>
    have hs := tlbFind_eq_some.mp h
    exact .inr ⟨x.1, x.2, hs.1.1, hs.1.2, hs.2, by rw [lookupTlb, h]⟩

theorem lookupTlb_miss {p : Page} {b : Block} (h : ∀ i e, b.slot i = some e → e.page ≠ p) :
    lookupTlb p b = (none, b) := by
  rw [lookupTlb, tlbFind_eq_none.mpr h]

theorem lookupTlb_hit {p : Page} {b : Block} {j : Fin 16} {e : TlbEntry} (hj : b.slot j = some e) (hp : e.page = p)
    (hlow : ∀ i < j, ∀ d, b.slot i = some d → d.page ≠ p) :
    lookupTlb p b = (some e.frame, b.setSlot j (some { e with stamp := b.clock })) := by
  rw [lookupTlb, tlbFind_eq_some.mpr ⟨⟨hj, hp⟩, hlow⟩]

/-- Where some slot matches there is a lowest one. -/
theorem tlbFind_of_slot {b : Block} {j : Fin 16} {e : TlbEntry} (hj : b.slot j = some e) :
    ∃ i d, tlbFind b e.page = some (i, d) := by
  cases h : tlbFind b e.page with
  | none => exact absurd rfl (tlbFind_eq_none.mp h j e hj)
  | some x => exact ⟨x.1, x.2, rfl⟩

/-! ### The LRU scan -/

/-- A left-to-right scan with strict replacement returns a least candidate, the first of them. -/
theorem scan_least (stamp : Fin 16 → Counter) (best : Fin 16) (l : List (Fin 16)) (hl : (best :: l).Pairwise (· < ·)) :
    let r := l.foldl (fun best i => if stamp i < stamp best then i else best) best
    (∀ i ∈ best :: l, stamp r ≤ stamp i) ∧ r ∈ best :: l ∧ ∀ i ∈ best :: l, i < r → stamp r < stamp i := by
  induction l generalizing best with
  | nil => simp
  | cons k l ih =>
    rw [List.foldl_cons]
    have hbk : best < k := (List.pairwise_cons.mp hl).1 k List.mem_cons_self
    have hkl := (List.pairwise_cons.mp hl).2
    have hbl : (best :: l).Pairwise (· < ·) := by
      refine List.Pairwise.cons (fun i hi => (List.pairwise_cons.mp hl).1 i (List.mem_cons_of_mem _ hi)) ?_
      exact (List.pairwise_cons.mp hkl).2
    simp only [BitVec.lt_def, BitVec.le_def] at ih ⊢
    by_cases hs : (stamp k).toNat < (stamp best).toNat
    · rw [if_pos hs]
      obtain ⟨h1, h2, h3⟩ := ih k hkl
      refine ⟨fun i hi => ?_, List.mem_cons_of_mem _ h2, fun i hi hir => ?_⟩
      · rcases List.mem_cons.mp hi with rfl | hi
        · exact le_of_lt (lt_of_le_of_lt (h1 k List.mem_cons_self) hs)
        · exact h1 i hi
      · rcases List.mem_cons.mp hi with rfl | hi
        · exact lt_of_le_of_lt (h1 k List.mem_cons_self) hs
        · exact h3 i hi hir
    · rw [if_neg hs]
      obtain ⟨h1, h2, h3⟩ := ih best hbl
      have hbk' : (stamp best).toNat ≤ (stamp k).toNat := not_lt.mp hs
      refine ⟨fun i hi => ?_, ?_, fun i hi hir => ?_⟩
      · rcases List.mem_cons.mp hi with rfl | hi
        · exact h1 _ List.mem_cons_self
        · rcases List.mem_cons.mp hi with rfl | hi
          · exact le_trans (h1 best List.mem_cons_self) hbk'
          · exact h1 i (List.mem_cons_of_mem _ hi)
      · rcases List.mem_cons.mp h2 with h2 | h2
        · rw [h2]
          exact List.mem_cons_self
        · exact List.mem_cons_of_mem _ (List.mem_cons_of_mem _ h2)
      · rcases List.mem_cons.mp hi with rfl | hi
        · exact h3 _ List.mem_cons_self hir
        · rcases List.mem_cons.mp hi with rfl | hi
          · have hbr : best < _ := Fin.lt_trans hbk hir
            exact lt_of_lt_of_le (h3 best List.mem_cons_self hbr) hbk'
          · exact h3 i (List.mem_cons_of_mem _ hi) hir

/-- The victim's stamp is least, and every lower slot's stamp is strictly greater. -/
theorem lruVictim_least (b : Block) :
    (∀ i, slotStamp b (lruVictim b) ≤ slotStamp b i) ∧
    ∀ i < lruVictim b, slotStamp b (lruVictim b) < slotStamp b i := by
  have hcons : List.finRange 16 = 0 :: (List.finRange 16).tail := rfl
  have hp : (0 :: (List.finRange 16).tail).Pairwise (fun i j : Fin 16 => i < j) := by decide
  have hfold : lruVictim b = ((List.finRange 16).tail).foldl
      (fun best i => if slotStamp b i < slotStamp b best then i else best) 0 := by
    rw [lruVictim, hcons, List.foldl_cons]
    simp
  obtain ⟨h1, -, h3⟩ := scan_least (slotStamp b) 0 _ hp
  rw [← hfold] at h1 h3
  have hall : ∀ i : Fin 16, i ∈ 0 :: (List.finRange 16).tail := fun i => by
    rw [← hcons]
    exact List.mem_finRange i
  exact ⟨fun i => h1 i (hall i), fun i hi => h3 i (hall i) hi⟩

/-! ### TLB.INSERT -/

/-- Everything the choice of slot can be: the page's own slot, the lowest invalid slot, the LRU victim of a full TLB. -/
theorem insertSlot_cases (b : Block) (p : Page) :
    (∃ j e, insertSlot b p = j ∧ b.slot j = some e ∧ e.page = p ∧ ∀ i < j, ∀ d, b.slot i = some d → d.page ≠ p) ∨
    ((∀ i e, b.slot i = some e → e.page ≠ p) ∧
      ∃ j, insertSlot b p = j ∧ b.slot j = none ∧ ∀ i < j, b.slot i ≠ none) ∨
    ((∀ i e, b.slot i = some e → e.page ≠ p) ∧ (∀ i, b.slot i ≠ none) ∧ insertSlot b p = lruVictim b) := by
  cases h : tlbFind b p with
  | none =>
    right
    have hmiss := tlbFind_eq_none.mp h
    cases hf : invalidSlot b with
    | none => exact .inr ⟨hmiss, invalidSlot_eq_none.mp hf, by rw [insertSlot, h, hf]⟩
    | some j =>
      have hj := invalidSlot_eq_some.mp hf
      exact .inl ⟨hmiss, j, by rw [insertSlot, h, hf], hj.1, hj.2⟩
  | some x =>
    left
    obtain ⟨⟨h1, h2⟩, h3⟩ := tlbFind_eq_some.mp h
    exact ⟨x.1, x.2, by rw [insertSlot, h], h1, h2, h3⟩

theorem insertTlb_slot (p : Page) (f : Frame) (t : Counter) (b : Block) (i : Fin 16) :
    (insertTlb p f t b).slot i = if insertSlot b p = i then some ⟨p, f, t⟩ else b.slot i :=
  Block.slot_setSlot b _ i _

/-! ### TLB.INVALIDATE -/

theorem invalidateTlb_slot (p : Page) (b : Block) (i : Fin 16) :
    (invalidateTlb p b).slot i = (b.slot i).filter fun e => e.page != p := by
  simp [Block.slot, invalidateTlb]

theorem invalidateTlb_slot_eq_some {p : Page} {b : Block} {i : Fin 16} {e : TlbEntry} :
    (invalidateTlb p b).slot i = some e ↔ b.slot i = some e ∧ e.page ≠ p := by
  simp [invalidateTlb_slot, Option.filter_eq_some_iff]

end Sys2Proof.Machine
end

