-- ==== Sys2Proof/Laws/Pages.lean ====
section
/-! SUPPORT. One lemma per operation of the page table, the frame allocator, the backing-store port and the counters. -/

namespace Sys2Proof.Machine

/-! ### The page table and the occupancy array -/

theorem mapPt_ptEntry (p q : Page) (f : Frame) (b : Block) :
    (mapPt p f b).ptEntry q = if p = q then some f else b.ptEntry q :=
  Block.ptEntry_setPtEntry b p q (some f)

theorem unmapPt_ptEntry (p q : Page) (b : Block) :
    (unmapPt p b).ptEntry q = if p = q then none else b.ptEntry q :=
  Block.ptEntry_setPtEntry b p q none

theorem occupyFrame_occEntry (f g : Frame) (p : Page) (b : Block) :
    (occupyFrame f p b).occEntry g = if f = g then some p else b.occEntry g :=
  Block.occEntry_setOccEntry b f g (some p)

theorem evictPage_ptEntry (p q : Page) (b : Block) :
    (evictPage p b).ptEntry q = if p = q then none else b.ptEntry q :=
  unmapPt_ptEntry p q b

theorem evictPage_slot (p : Page) (b : Block) (i : Fin 16) :
    (evictPage p b).slot i = (b.slot i).filter fun e => e.page != p :=
  invalidateTlb_slot p (unmapPt p b) i

theorem loadPage_ptEntry (p q : Page) (f : Frame) (d : PageBytes) (b : Block) :
    (loadPage p f d b).ptEntry q = if p = q then some f else b.ptEntry q :=
  mapPt_ptEntry p q f (writeFrame f d b)

theorem loadPage_occEntry (p : Page) (f g : Frame) (d : PageBytes) (b : Block) :
    (loadPage p f d b).occEntry g = if f = g then some p else b.occEntry g :=
  occupyFrame_occEntry f g p (mapPt p f (writeFrame f d b))

theorem loadPage_pm (p : Page) (f : Frame) (d : PageBytes) (b : Block) :
    (loadPage p f d b).pm = (writeFrame f d b).pm := rfl

/-! ### The frame allocator -/

/-- The free frame is empty and every lower frame is occupied. -/
theorem freeFrame_eq_some {b : Block} {f : Frame} :
    freeFrame b = some f ↔ b.occEntry f = none ∧ ∀ g : Frame, g < f → b.occEntry g ≠ none := by
  simp only [freeFrame, lowest_eq_some]
  constructor
  · rintro ⟨i, h1, h2⟩
    have hi : b.occEntry (BitVec.ofFin i) = none ∧ BitVec.ofFin i = f := by
      cases h : b.occEntry (BitVec.ofFin i) <;> simp_all [Block.occupied]
    obtain ⟨hn, rfl⟩ := hi
    refine ⟨hn, fun g hg hgn => ?_⟩
    have h := h2 g.toFin hg
    simp [Block.occupied, hgn] at h
  · rintro ⟨h1, h2⟩
    refine ⟨f.toFin, by simp [Block.occupied, h1], fun j hj => ?_⟩
    have h := h2 (BitVec.ofFin j) hj
    cases hc : b.occEntry (BitVec.ofFin j) with
    | none => exact absurd hc h
    | some p => simp [Block.occupied, hc]

/-- There is no free frame exactly when all are occupied. -/
theorem freeFrame_eq_none {b : Block} : freeFrame b = none ↔ ∀ f, b.occEntry f ≠ none := by
  simp only [freeFrame, lowest_eq_none]
  constructor
  · intro h f hn
    have := h f.toFin
    simp [Block.occupied, hn] at this
  · intro h i
    cases hc : b.occEntry (BitVec.ofFin i) with
    | none => exact absurd hc (h _)
    | some p => simp [Block.occupied, hc]

/-- Everything FA.ALLOCATE can do: return the lowest empty frame and change nothing, or evict the frame the cursor names. -/
theorem allocateFrame_cases (p : Page) (b : Block) :
    (∃ f, b.occEntry f = none ∧ (∀ g : Frame, g < f → b.occEntry g ≠ none) ∧ allocateFrame p b = (f, b)) ∨
    ((∀ f, b.occEntry f ≠ none) ∧ ∃ vp, b.occEntry b.fifoCursor = some vp ∧
      allocateFrame p b = (b.fifoCursor,
        (evictPage vp { b with fifoCursor := b.fifoCursor + 1#7 }).setOccEntry b.fifoCursor none)) := by
  cases h : freeFrame b with
  | some f =>
    have hf := freeFrame_eq_some.mp h
    exact .inl ⟨f, hf.1, hf.2, by simp [allocateFrame, h]⟩
  | none =>
    have hn := freeFrame_eq_none.mp h
    obtain ⟨vp, hv⟩ := Option.ne_none_iff_exists'.mp (hn b.fifoCursor)
    exact .inr ⟨hn, vp, hv, by simp [allocateFrame, h, evictFrame, hv]⟩

/-- The scalars and the memory that FA.ALLOCATE leaves alone. -/
theorem allocateFrame_frame (p : Page) (b : Block) :
    (allocateFrame p b).2.clock = b.clock ∧ (allocateFrame p b).2.pm = b.pm ∧
    (allocateFrame p b).2.statAddresses = b.statAddresses ∧ (allocateFrame p b).2.statTlbHits = b.statTlbHits ∧
    (allocateFrame p b).2.statPageFaults = b.statPageFaults ∧ (allocateFrame p b).2.status = b.status := by
  rcases allocateFrame_cases p b with ⟨f, -, -, h⟩ | ⟨-, vp, -, h⟩ <;> rw [h] <;> simp

/-! ### The backing-store port -/

/-- Everything BS.READ_PAGE can do. -/
theorem readPage_cases (p : Page) (s : State) :
    (∃ rest, s.bsAnswers = .silent :: rest ∧ readPage p s = (.unanswered, { s with bsAnswers := rest })) ∨
    (∃ rest, (s.bsAnswers = .fail :: rest ∨ s.store.holds p = false ∧ s.bsAnswers = .deliver :: rest ∨
        s.store.holds p = false ∧ s.bsAnswers = [] ∧ rest = []) ∧
      readPage p s = (.failed, { s with bsAnswers := rest })) ∨
    (∃ rest, (s.bsAnswers = .deliver :: rest ∨ s.bsAnswers = [] ∧ rest = []) ∧ s.store.holds p = true ∧
      readPage p s = (.delivered (s.store.page p), { s with bsAnswers := rest })) := by
  cases h : s.bsAnswers with
  | nil =>
    have hs : s = { s with bsAnswers := [] } := by
      cases s
      simp_all
    cases hh : s.store.holds p with
    | true =>
      refine .inr (.inr ⟨[], .inr ⟨rfl, rfl⟩, rfl, ?_⟩)
      rw [← hs]
      simp [readPage, h, hh]
    | false =>
      refine .inr (.inl ⟨[], .inr (.inr ⟨rfl, rfl, rfl⟩), ?_⟩)
      rw [← hs]
      simp [readPage, h, hh]
  | cons a rest =>
    cases a with
    | silent => exact .inl ⟨rest, rfl, by simp [readPage, h]⟩
    | fail => exact .inr (.inl ⟨rest, .inl rfl, by simp [readPage, h]⟩)
    | deliver =>
      cases hh : s.store.holds p with
      | true => exact .inr (.inr ⟨rest, .inl rfl, rfl, by simp [readPage, h, hh]⟩)
      | false => exact .inr (.inl ⟨rest, .inr (.inl ⟨rfl, rfl⟩), by simp [readPage, h, hh]⟩)

/-- A page read uses up one of the environment's choices, whichever it is, and changes nothing else. -/
theorem readPage_state (p : Page) (s : State) : (readPage p s).2 = { s with bsAnswers := s.bsAnswers.tail } := by
  rcases s with ⟨b, i, r, w, st, _ | ⟨c, rest⟩, u, v, n⟩
  · rfl
  · cases c <;> rfl

/-! ### The counters -/

/-- Below `2^32 - 1` an increment is exact. -/
theorem add_one_toNat {c : Counter} (h : c ≠ Config.ctrMax) : (c + 1#32).toNat = c.toNat + 1 := by
  have hlt := c.isLt
  have hne : c.toNat ≠ 4294967295 := fun hh => h (BitVec.eq_of_toNat_eq (by simpa [Config.ctrMax] using hh))
  rw [BitVec.toNat_add]
  simp only [BitVec.toNat_ofNat]
  omega

theorem increment_of_ne {c : Counter} (h : c ≠ Config.ctrMax) : increment c = some (c + 1#32) := by
  simp [increment, h]

theorem increment_max : increment Config.ctrMax = none := by
  simp [increment]

theorem recordAccess_of_ne {b : Block} (h : b.statAddresses ≠ Config.ctrMax) :
    recordAccess b = some { b with statAddresses := b.statAddresses + 1#32 } := by
  simp [recordAccess, increment_of_ne h]

theorem recordTlbHit_of_ne {b : Block} (h : b.statTlbHits ≠ Config.ctrMax) :
    recordTlbHit b = some { b with statTlbHits := b.statTlbHits + 1#32 } := by
  simp [recordTlbHit, increment_of_ne h]

theorem recordPageFault_of_ne {b : Block} (h : b.statPageFaults ≠ Config.ctrMax) :
    recordPageFault b = some { b with statPageFaults := b.statPageFaults + 1#32 } := by
  simp [recordPageFault, increment_of_ne h]

/-- A counter update that happens adds one to a counter that was not at its last value. -/
theorem recordAccess_eq_some {b c : Block} (h : recordAccess b = some c) :
    b.statAddresses ≠ Config.ctrMax ∧ c = { b with statAddresses := b.statAddresses + 1#32 } := by
  by_cases hm : b.statAddresses = Config.ctrMax
  · simp [recordAccess, hm, increment_max] at h
  · rw [recordAccess_of_ne hm, Option.some.injEq] at h
    exact ⟨hm, h.symm⟩

theorem recordTlbHit_eq_some {b c : Block} (h : recordTlbHit b = some c) :
    b.statTlbHits ≠ Config.ctrMax ∧ c = { b with statTlbHits := b.statTlbHits + 1#32 } := by
  by_cases hm : b.statTlbHits = Config.ctrMax
  · simp [recordTlbHit, hm, increment_max] at h
  · rw [recordTlbHit_of_ne hm, Option.some.injEq] at h
    exact ⟨hm, h.symm⟩

theorem recordPageFault_eq_some {b c : Block} (h : recordPageFault b = some c) :
    b.statPageFaults ≠ Config.ctrMax ∧ c = { b with statPageFaults := b.statPageFaults + 1#32 } := by
  by_cases hm : b.statPageFaults = Config.ctrMax
  · simp [recordPageFault, hm, increment_max] at h
  · rw [recordPageFault_of_ne hm, Option.some.injEq] at h
    exact ⟨hm, h.symm⟩

end Sys2Proof.Machine
end

