-- ==== Sys2Proof/Laws/Translate.lean ====
section
/-! SUPPORT. Everything an XLATE can do, said once: the block after step 1, how steps 3 to 6 end in each case, and the whole
command by cases. Later proofs cite `execXlate_cases` and do not unfold the sequencer. -/

namespace Sys2Proof.Machine

/-- The block after step 1 of an XLATE (40_translate.md R121). -/
def Block.started (b : Block) : Block :=
  { b with clock := b.clock + 1#32, statAddresses := b.statAddresses + 1#32 }

theorem startAccess_of_ne {b : Block} (h : b.statAddresses ≠ Config.ctrMax) : startAccess b = some b.started :=
  recordAccess_of_ne h

theorem startAccess_max {b : Block} (h : b.statAddresses = Config.ctrMax) : startAccess b = none := by
  simp [startAccess, recordAccess, h, increment_max]

@[simp] theorem Block.started_slot (b : Block) (i : Fin 16) : b.started.slot i = b.slot i := rfl

@[simp] theorem Block.started_ptEntry (b : Block) (p : Page) : b.started.ptEntry p = b.ptEntry p := rfl

@[simp] theorem Block.started_occEntry (b : Block) (f : Frame) : b.started.occEntry f = b.occEntry f := rfl

@[simp] theorem Block.started_clock (b : Block) : b.started.clock = b.clock + 1#32 := rfl

@[simp] theorem Block.started_pm (b : Block) : b.started.pm = b.pm := rfl

@[simp] theorem Block.started_fifoCursor (b : Block) : b.started.fifoCursor = b.fifoCursor := rfl

@[simp] theorem Block.started_status (b : Block) : b.started.status = b.status := rfl

@[simp] theorem Block.started_statAddresses (b : Block) : b.started.statAddresses = b.statAddresses + 1#32 := rfl

@[simp] theorem Block.started_statTlbHits (b : Block) : b.started.statTlbHits = b.statTlbHits := rfl

@[simp] theorem Block.started_statPageFaults (b : Block) : b.started.statPageFaults = b.statPageFaults := rfl

/-- The block after a TLB hit in slot `j` (40_translate.md R123). -/
def Block.afterHit (b : Block) (j : Fin 16) (e : TlbEntry) : Block :=
  { b.setSlot j (some { e with stamp := b.clock }) with statTlbHits := b.statTlbHits + 1#32 }

/-- The block in which the page fault of `b` reads its page: the fault counted and a frame allocated
(40_translate.md R125). -/
def Block.afterAllocate (b : Block) (p : Page) : Frame × Block :=
  allocateFrame p { b with statPageFaults := b.statPageFaults + 1#32 }

/-- The block after a page fault that loads the page (40_translate.md R125, R126). -/
def Block.afterFault (b : Block) (p : Page) (d : PageBytes) : Block :=
  insertTlb p (b.afterAllocate p).1 b.clock (loadPage p (b.afterAllocate p).1 d (b.afterAllocate p).2)

theorem resolve_hit {s : State} {p : Page} {j : Fin 16} {e : TlbEntry} (hh : s.block.TlbHits p j e)
    (hc : s.block.statTlbHits ≠ Config.ctrMax) :
    resolve p s = .found .tlbHit e.frame (s.withBlock (s.block.afterHit j e)) := by
  unfold resolve
  rw [lookupTlb_hit hh.1 hh.2.1 hh.2.2]
  simp only
  rw [recordTlbHit_of_ne (by simpa using hc)]
  rfl

theorem resolve_hit_full {s : State} {p : Page} {j : Fin 16} {e : TlbEntry} (hh : s.block.TlbHits p j e)
    (hc : s.block.statTlbHits = Config.ctrMax) : resolve p s = .counterFull := by
  unfold resolve
  rw [lookupTlb_hit hh.1 hh.2.1 hh.2.2]
  simp [recordTlbHit, hc, increment_max]

theorem resolve_table {s : State} {p : Page} {f : Frame} (hm : s.block.TlbMisses p) (hp : s.block.ptEntry p = some f) :
    resolve p s = .found .tableHit f (s.withBlock (insertTlb p f s.block.clock s.block)) := by
  unfold resolve
  rw [lookupTlb_miss hm]
  simp [lookupPt, hp]

theorem resolve_fault {s : State} {p : Page} (hm : s.block.TlbMisses p) (hp : s.block.ptEntry p = none) :
    resolve p s = serviceFault p s := by
  unfold resolve
  rw [lookupTlb_miss hm]
  simp only [lookupPt, hp]
  rfl

theorem serviceFault_full {s : State} {p : Page} (hc : s.block.statPageFaults = Config.ctrMax) :
    serviceFault p s = .counterFull := by
  simp [serviceFault, recordPageFault, hc, increment_max]

theorem readPage_withBlock (p : Page) (s : State) (b : Block) :
    readPage p (s.withBlock b) = ((readPage p s).1, (readPage p s).2.withBlock b) := by
  rcases s with ⟨b0, i, r, w, st, a, u, v, n⟩
  rcases a with _ | ⟨c, rest⟩
  · rfl
  · cases c <;> rfl

theorem serviceFault_of_ne {s : State} {p : Page} (hc : s.block.statPageFaults ≠ Config.ctrMax) :
    serviceFault p s =
      match readPage p s with
      | (.delivered d, t) =>
        .found .pageFault (s.block.afterAllocate p).1 (t.withBlock (s.block.afterFault p d))
      | (.failed, t) => .readFailed (t.withBlock (s.block.afterAllocate p).2)
      | (.unanswered, t) => .unanswered (t.withBlock (s.block.afterAllocate p).2) := by
  unfold serviceFault
  rw [recordPageFault_of_ne hc]
  simp only
  rw [readPage_withBlock]
  have hclock : ∀ d, (loadPage p (s.block.afterAllocate p).1 d (s.block.afterAllocate p).2).clock = s.block.clock :=
    fun _ => (allocateFrame_frame p _).1
  cases hr : readPage p s with
  | mk r t =>
    cases r with
    | delivered d =>
      change Resolved.found .pageFault (s.block.afterAllocate p).1 (t.withBlock (insertTlb p (s.block.afterAllocate p).1
        (loadPage p (s.block.afterAllocate p).1 d (s.block.afterAllocate p).2).clock
        (loadPage p (s.block.afterAllocate p).1 d (s.block.afterAllocate p).2))) = _
      rw [hclock d]
      rfl
    | failed => rfl
    | unanswered => rfl

/-- Everything an XLATE can do, one case for each way 40_translate.md R128 lets it end: halted; the clock at its last value; a
counter at its last value; a TLB hit; a page-table hit; a page fault whose page is delivered, whose read fails, or whose
read is never answered. -/
theorem execXlate_cases (arg : Arg) (s : State) :
    (s.block.status.halted = true ∧ execXlate arg s = .next (respond .errFatal s)) ∨
    (s.block.status.halted = false ∧ s.block.clock = Config.ctrMax ∧
      execXlate arg s = .next (raiseFatal .ctrOverflow s)) ∨
    (s.block.status.halted = false ∧ s.block.clock ≠ Config.ctrMax ∧
      (s.block.statAddresses = Config.ctrMax ∨ s.block.statTlbHits = Config.ctrMax ∨
        s.block.statPageFaults = Config.ctrMax) ∧ execXlate arg s = .fault .counterWouldWrap) ∨
    (s.block.status.halted = false ∧ s.block.clock ≠ Config.ctrMax ∧ s.block.statAddresses ≠ Config.ctrMax ∧
      ((∃ j e, s.block.statTlbHits ≠ Config.ctrMax ∧ s.block.TlbHits (pageOf (logicalAddress arg)) j e ∧
          execXlate arg s = .next (finishAccess .tlbHit e.frame (offsetOf (logicalAddress arg))
            (s.withBlock (s.block.started.afterHit j e)))) ∨
        (∃ f, s.block.TlbMisses (pageOf (logicalAddress arg)) ∧
          s.block.ptEntry (pageOf (logicalAddress arg)) = some f ∧
          execXlate arg s = .next (finishAccess .tableHit f (offsetOf (logicalAddress arg)) (s.withBlock
            (insertTlb (pageOf (logicalAddress arg)) f s.block.started.clock s.block.started)))) ∨
        (s.block.TlbMisses (pageOf (logicalAddress arg)) ∧ s.block.ptEntry (pageOf (logicalAddress arg)) = none ∧
          s.block.statPageFaults ≠ Config.ctrMax ∧
          ((∃ rest, (s.bsAnswers = .deliver :: rest ∨ s.bsAnswers = [] ∧ rest = []) ∧
              s.store.holds (pageOf (logicalAddress arg)) = true ∧
              execXlate arg s = .next (finishAccess .pageFault
                (s.block.started.afterAllocate (pageOf (logicalAddress arg))).1 (offsetOf (logicalAddress arg))
                (({ s with bsAnswers := rest }).withBlock (s.block.started.afterFault (pageOf (logicalAddress arg))
                  (s.store.page (pageOf (logicalAddress arg))))))) ∨
            (∃ rest, (s.bsAnswers = .fail :: rest ∨
                s.store.holds (pageOf (logicalAddress arg)) = false ∧ s.bsAnswers = .deliver :: rest ∨
                s.store.holds (pageOf (logicalAddress arg)) = false ∧ s.bsAnswers = [] ∧ rest = []) ∧
              execXlate arg s = .next (raiseFatal .bsReadFailure (({ s with bsAnswers := rest }).withBlock
                (s.block.started.afterAllocate (pageOf (logicalAddress arg))).2))) ∨
            (∃ rest, s.bsAnswers = .silent :: rest ∧ execXlate arg s =
              .next { s with
                waiting := some (.xlate ((logicalAddress arg).setWidth 32)), bsAnswers := rest }))))) := by
  generalize hp : pageOf (logicalAddress arg) = p
  cases hh : s.block.status.halted with
  | true => exact .inl ⟨rfl, by simp [execXlate, Block.halted, hh]⟩
  | false =>
    right
    by_cases hc : s.block.clock = Config.ctrMax
    · exact .inl ⟨rfl, hc, by simp [execXlate, Block.halted, hh, hc]⟩
    · right
      by_cases ha : s.block.statAddresses = Config.ctrMax
      · exact .inl ⟨rfl, hc, .inl ha, by simp [execXlate, Block.halted, hh, hc, startAccess_max ha]⟩
      · have hx : execXlate arg s = match resolve p (s.withBlock s.block.started) with
            | .found kind frame t => .next (finishAccess kind frame (offsetOf (logicalAddress arg)) t)
            | .readFailed t => .next (raiseFatal .bsReadFailure t)
            | .unanswered t =>
              .next { s with waiting := some (.xlate ((logicalAddress arg).setWidth 32)), bsAnswers := t.bsAnswers }
            | .counterFull => .fault .counterWouldWrap := by
          simp only [execXlate, Block.halted, hh, hc, startAccess_of_ne ha, hp]
          cases resolve p (s.withBlock s.block.started) <;> rfl
        cases hf : tlbFind s.block p with
        | some x =>
          have hs := tlbFind_eq_some.mp hf
          have hhit : (s.withBlock s.block.started).block.TlbHits p x.1 x.2 := ⟨hs.1.1, hs.1.2, hs.2⟩
          by_cases ht : s.block.statTlbHits = Config.ctrMax
          · exact .inl ⟨rfl, hc, .inr (.inl ht), by rw [hx, resolve_hit_full hhit ht]⟩
          · refine .inr ⟨rfl, hc, ha, .inl ⟨x.1, x.2, ht, ⟨hs.1.1, hs.1.2, hs.2⟩, ?_⟩⟩
            rw [hx, resolve_hit hhit ht]
            rfl
        | none =>
          have hm := tlbFind_eq_none.mp hf
          cases hpt : s.block.ptEntry p with
          | some f =>
            refine .inr ⟨rfl, hc, ha, .inr (.inl ⟨f, hm, rfl, ?_⟩)⟩
            rw [hx, resolve_table (s := s.withBlock s.block.started) hm hpt]
            rfl
          | none =>
            have hr := resolve_fault (s := s.withBlock s.block.started) hm hpt
            by_cases hg : s.block.statPageFaults = Config.ctrMax
            · exact .inl ⟨rfl, hc, .inr (.inr hg), by
                rw [hx, hr, serviceFault_full (s := s.withBlock s.block.started) hg]⟩
            · refine .inr ⟨rfl, hc, ha, .inr (.inr ⟨hm, rfl, hg, ?_⟩)⟩
              have hsf := serviceFault_of_ne (s := s.withBlock s.block.started) (p := p) hg
              rw [readPage_withBlock] at hsf
              rcases readPage_cases p s with ⟨rest, h1, h2⟩ | ⟨rest, h1, h2⟩ | ⟨rest, h1, h3, h2⟩
              · refine .inr (.inr ⟨rest, h1, ?_⟩)
                rw [hx, hr, hsf, h2]
                rfl
              · refine .inr (.inl ⟨rest, h1, ?_⟩)
                rw [hx, hr, hsf, h2]
                rfl
              · refine .inl ⟨rest, h1, h3, ?_⟩
                rw [hx, hr, hsf, h2]
                rfl

end Sys2Proof.Machine
end

