-- ==== Sys2Proof/Laws/Invariant.lean ====
section
/-! SUPPORT. The promises of 10_state.md R35 to R45 through an XLATE: broken by step 1, restored by each of the three ways it can
end. -/

namespace Sys2Proof.Machine

/-- The promises hold of every block that is not halted. -/
theorem State.Inv.good_of_live {s : State} (h : s.Inv) (hl : s.block.halted = false) : s.block.Good s.store :=
  h.good (by rw [h.statusCoded.mp hl]; decide)

/-- No promise reads `status`: the fatal path of CTR_OVERFLOW keeps them all. -/
theorem Block.good_withStatus {st : Store} {b : Block} (g : b.Good st) (c : Status) : ({ b with status := c } : Block).Good st :=
  ⟨g.ptInjective, g.occInverse, g.tlbSubset, g.tlbUnique, g.occPrefix, g.stampsOrdered, g.clockCounts, g.countersBounded,
    g.mirrors, g.cursorCounts⟩

/-- A block in the middle of an XLATE: the promises, with the clock ahead of every stamp and the access counted. -/
structure Block.Mid (st : Store) (b : Block) : Prop where
  good : b.Good st
  fresh : ∀ i e, b.slot i = some e → e.stamp < b.clock
  pos : 1#32 ≤ b.clock
  room : b.statTlbHits.toNat + b.statPageFaults.toNat + 1 ≤ b.statAddresses.toNat

/-- Writing one slot with a mapped page, stamped with the clock, keeps the promises. -/
theorem Block.good_of_slot_written {st : Store} {b : Block} (h : Block.Mid st b) {c : Block}
    (hpt : c.pt = b.pt) (hocc : c.occ = b.occ) (hpm : c.pm = b.pm) (hcl : c.clock = b.clock) (hcur : c.fifoCursor = b.fifoCursor)
    (ha : c.statAddresses = b.statAddresses) (hf : c.statPageFaults = b.statPageFaults)
    (hh : c.statTlbHits.toNat ≤ b.statTlbHits.toNat + 1)
    (hslot : ∃ j f p, b.ptEntry p = some f ∧ (∀ i d, i ≠ j → b.slot i = some d → d.page ≠ p) ∧
      ∀ i, c.slot i = if i = j then some ⟨p, f, b.clock⟩ else b.slot i) : c.Good st := by
  obtain ⟨j, f, p, hp, hother, hs⟩ := hslot
  have hpt' : ∀ q, c.ptEntry q = b.ptEntry q := fun q => by simp [Block.ptEntry, hpt]
  have hocc' : ∀ g, c.occEntry g = b.occEntry g := fun q => by simp [Block.occEntry, hocc]
  have g := h.good
  refine ⟨?_, ?_, ?_, ?_, ?_, ?_, ?_, ?_, ?_, ?_⟩
  · intro p q f; rw [hpt', hpt']; exact g.ptInjective p q f
  · intro f p; rw [hpt', hocc']; exact g.occInverse f p
  · intro i e hi
    rw [hs] at hi; rw [hpt']
    split at hi
    · cases hi; exact hp
    · exact g.tlbSubset i e hi
  · intro i k d e hi hk hde
    rw [hs] at hi hk
    split at hi <;> split at hk
    · simp_all
    · cases hi; exact absurd hde.symm (hother k e ‹_› hk)
    · cases hk; exact absurd hde (hother i d ‹_› hi)
    · exact g.tlbUnique i k d e hi hk hde
  · intro f; simp only [Block.occupied, hocc', hf]; exact g.occPrefix f
  · constructor
    · intro i e hi
      rw [hs] at hi; rw [hcl]
      split at hi
      · cases hi; exact ⟨h.pos, BitVec.le_refl _⟩
      · exact g.stampsOrdered.1 i e hi
    · intro i k d e hi hk hde
      rw [hs] at hi hk
      split at hi <;> split at hk
      · simp_all
      · cases hi
        have := h.fresh k e hk
        rw [← hde] at this; simp at this
      · cases hk
        have := h.fresh i d hi
        rw [hde] at this; simp at this
      · exact g.stampsOrdered.2 i k d e hi hk hde
  · show c.clock = c.statAddresses
    rw [hcl, ha]; exact g.clockCounts
  · show _ ≤ _
    have := h.room
    rw [hf, ha]; omega
  · intro f p i; rw [hocc', hpm]; exact g.mirrors f p i
  · show _ = _
    rw [hcur, hf]; exact g.cursorCounts

/-- Step 1 of an XLATE leads from the promises to the middle. -/
theorem Block.mid_started {st : Store} {b : Block} (g : b.Good st) (hc : b.clock ≠ Config.ctrMax) : Block.Mid st b.started := by
  have hcc : b.clock = b.statAddresses := g.clockCounts
  have e1 := add_one_toNat hc
  have ha : b.statAddresses ≠ Config.ctrMax := hcc ▸ hc
  have e2 := add_one_toNat ha
  have hb : b.statTlbHits.toNat + b.statPageFaults.toNat ≤ b.statAddresses.toNat := g.countersBounded
  refine ⟨⟨g.ptInjective, g.occInverse, g.tlbSubset, g.tlbUnique, g.occPrefix, ⟨?_, g.stampsOrdered.2⟩, ?_, ?_, g.mirrors, g.cursorCounts⟩, ?_, ?_, ?_⟩
  · intro i e hi
    have := g.stampsOrdered.1 i e hi
    simp only [BitVec.le_def, Block.started_clock] at this ⊢
    exact ⟨this.1, by omega⟩
  · show b.clock + 1#32 = b.statAddresses + 1#32
    rw [hcc]
  · show _ ≤ _
    simp only [Block.started_statAddresses, Block.started_statTlbHits, Block.started_statPageFaults]; omega
  · intro i e hi
    have := (g.stampsOrdered.1 i e hi).2
    simp only [BitVec.le_def, BitVec.lt_def, Block.started_clock] at this ⊢
    omega
  · simp only [BitVec.le_def, Block.started_clock]; simp only [BitVec.toNat_ofNat]; omega
  · simp only [Block.started_statAddresses, Block.started_statTlbHits, Block.started_statPageFaults]; omega

/-- The slot TLB.INSERT writes is one of the three cases of 41_tlb.md R142. -/
theorem isInsertSlot_insertSlot (b : Block) (p : Page) : IsInsertSlot b.slot p (insertSlot b p) := by
  rcases insertSlot_cases b p with ⟨j, e, h1, h2, h3, h4⟩ | ⟨hm, j, h1, h2, h3⟩ | ⟨hm, hall, h1⟩
  · left; rw [h1]; exact ⟨e, h2, h3, h4⟩
  · right; left; rw [h1]; exact ⟨hm, h2, h3⟩
  · right; right
    refine ⟨hm, hall, ?_⟩
    obtain ⟨e, he⟩ := Option.ne_none_iff_exists'.mp (hall (insertSlot b p))
    refine ⟨e, he, fun i d hd => ?_⟩
    have hl := lruVictim_least b
    rw [← h1] at hl
    have s1 : slotStamp b (insertSlot b p) = e.stamp := by simp [slotStamp, he]
    have s2 : slotStamp b i = d.stamp := by simp [slotStamp, hd]
    rw [← s1, ← s2]
    exact ⟨hl.1 i, hl.2 i⟩

/-- A TLB hit restores the promises. -/
theorem Block.good_afterHit {st : Store} {b : Block} (h : Block.Mid st b) {p j e} (hh : b.TlbHits p j e) (hc : b.statTlbHits ≠ Config.ctrMax) :
    (b.afterHit j e).Good st := by
  refine Block.good_of_slot_written h rfl rfl rfl rfl rfl rfl rfl ?_ ⟨j, e.frame, e.page, h.good.tlbSubset j e hh.1, ?_, ?_⟩
  · show (b.statTlbHits + 1#32).toNat ≤ _
    rw [add_one_toNat hc]
  · intro i d hij hd hp
    exact hij (h.good.tlbUnique i j d e hd hh.1 hp)
  · intro i
    show (b.setSlot j _).slot i = _
    rw [Block.slot_setSlot]
    simp only [eq_comm]

/-- A page-table hit restores the promises. -/
theorem Block.good_insertTlb {st : Store} {b : Block} (h : Block.Mid st b) {p f} (hm : b.TlbMisses p) (hp : b.ptEntry p = some f) :
    (insertTlb p f b.clock b).Good st := by
  refine Block.good_of_slot_written h rfl rfl rfl rfl rfl rfl rfl ?_ ⟨insertSlot b p, f, p, hp, ?_, ?_⟩
  · exact Nat.le_succ _
  · intro i d _ hd; exact hm i d hd
  · intro i; rw [insertTlb_slot]; simp only [eq_comm]

/-- What the allocation of a page fault leaves: the frame is empty, the page is in no slot and unmapped, and every promise
holds but those that the fault is about to restore. -/
structure Block.Allocated (st : Store) (b B : Block) (fr : Frame) (p : Page) : Prop where
  ptInj : B.PtInjective
  occInv : B.OccInverse
  sub : B.TlbSubset
  uniq : B.TlbUnique
  stamps : ∀ i j d e, B.slot i = some d → B.slot j = some e → d.stamp = e.stamp → i = j
  fresh : ∀ i e, B.slot i = some e → 1#32 ≤ e.stamp ∧ e.stamp < B.clock
  mir : B.Mirrors st
  empty : B.occEntry fr = none
  unm : B.ptEntry p = none
  miss : B.TlbMisses p
  clk : B.clock = b.clock
  sa : B.statAddresses = b.statAddresses
  sh : B.statTlbHits = b.statTlbHits
  sf : B.statPageFaults = b.statPageFaults + 1#32
  cur : B.fifoCursor.toNat = (B.statPageFaults.toNat - 128) % 128
  pre : ∀ g, (B.occupied g = true ∨ g = fr) ↔ g.toNat < min B.statPageFaults.toNat 128
  frn : fr.toNat = if b.statPageFaults.toNat < 128 then b.statPageFaults.toNat else (b.statPageFaults.toNat - 128) % 128
  pm : B.pm = b.pm
  status : B.status = b.status
  keep : ∀ q f, b.ptEntry q = some f → B.ptEntry q = some f ∨ B.ptEntry q = none

/-- FA.ALLOCATE in the middle of an XLATE, on both of its paths. -/
theorem Block.allocated_afterAllocate {st : Store} {b : Block} (h : Block.Mid st b) {p} (hm : b.TlbMisses p) (hp : b.ptEntry p = none)
    (hc : b.statPageFaults ≠ Config.ctrMax) : Block.Allocated st b (b.afterAllocate p).2 (b.afterAllocate p).1 p := by
  have g := h.good
  have e1 := add_one_toNat hc
  rcases allocateFrame_cases p { b with statPageFaults := b.statPageFaults + 1#32 } with ⟨f, h1, h2, h3⟩ | ⟨h1, vp, h2, h3⟩
  · rw [Block.afterAllocate, h3]
    change b.occEntry f = none at h1
    change ∀ g < f, b.occEntry g ≠ none at h2
    have pre := g.occPrefix
    have hf1 : ¬ f.toNat < min b.statPageFaults.toNat 128 := by
      rw [← pre f]; simp [Block.occupied, h1]
    have hf128 := f.isLt
    have hfk : f.toNat = b.statPageFaults.toNat := by
      by_contra hne
      have hlt : b.statPageFaults.toNat < f.toNat := by omega
      have := h2 (BitVec.ofNat 7 b.statPageFaults.toNat) (by rw [BitVec.lt_def, BitVec.toNat_ofNat]; omega)
      have h5 := (pre (BitVec.ofNat 7 b.statPageFaults.toNat)).mp (by
        obtain ⟨x, hx⟩ := Option.ne_none_iff_exists'.mp this
        rw [Block.occupied, hx]; rfl)
      rw [BitVec.toNat_ofNat] at h5; omega
    refine ⟨g.ptInjective, g.occInverse, g.tlbSubset, g.tlbUnique, g.stampsOrdered.2, ?_, g.mirrors, h1, hp, hm, rfl, rfl, rfl, rfl, ?_, ?_, ?_, rfl, rfl, ?_⟩
    · intro i e hi; exact ⟨(g.stampsOrdered.1 i e hi).1, h.fresh i e hi⟩
    · have : b.fifoCursor.toNat = _ := g.cursorCounts
      show b.fifoCursor.toNat = ((b.statPageFaults + 1#32).toNat - 128) % 128
      omega
    · intro x
      show (b.occupied x = true ∨ x = f) ↔ x.toNat < min (b.statPageFaults + 1#32).toNat 128
      rw [pre x, BitVec.toNat_eq]; omega
    · rw [hfk]; split <;> omega
    · intro q f hq; exact .inl hq
  · rw [Block.afterAllocate, h3]
    change ∀ g, b.occEntry g ≠ none at h1
    change b.occEntry b.fifoCursor = some vp at h2
    have pre := g.occPrefix
    have hk : 128 ≤ b.statPageFaults.toNat := by
      have h5 := (pre 127#7).mp (by
        obtain ⟨x, hx⟩ := Option.ne_none_iff_exists'.mp (h1 127#7)
        simp [Block.occupied, hx])
      have : (127#7).toNat = 127 := rfl
      omega
    have hvp : b.ptEntry vp = some b.fifoCursor := (g.occInverse _ _).mp h2
    have hcur : b.fifoCursor.toNat = _ := g.cursorCounts
    generalize hB : (evictPage vp { { b with statPageFaults := b.statPageFaults + 1#32 } with fifoCursor := b.fifoCursor + 1#7 }).setOccEntry b.fifoCursor none = B
    change Block.Allocated st b B b.fifoCursor p
    have Bocc : ∀ x, B.occEntry x = if b.fifoCursor = x then none else b.occEntry x := fun x => by
      rw [← hB, Block.occEntry_setOccEntry]; rfl
    have Bpt : ∀ q, B.ptEntry q = if vp = q then none else b.ptEntry q := fun q => by
      rw [← hB, Block.setOccEntry_ptEntry, evictPage_ptEntry]; rfl
    have Bslot : ∀ i e, B.slot i = some e ↔ b.slot i = some e ∧ e.page ≠ vp := fun i e => by
      rw [← hB, Block.setOccEntry_slot, evictPage_slot, Option.filter_eq_some_iff]; simp [Block.slot]
    have Bpm : B.pm = b.pm := by rw [← hB]; rfl
    have Bclk : B.clock = b.clock := by rw [← hB]; rfl
    have Bsf : B.statPageFaults = b.statPageFaults + 1#32 := by rw [← hB]; rfl
    have Bcur : B.fifoCursor = b.fifoCursor + 1#7 := by rw [← hB]; rfl
    refine ⟨?_, ?_, ?_, ?_, ?_, ?_, ?_, ?_, ?_, ?_, Bclk, by rw [← hB]; rfl, by rw [← hB]; rfl, Bsf, ?_, ?_, ?_, Bpm, by rw [← hB]; rfl, ?_⟩
    · intro q r f; rw [Bpt, Bpt]
      split <;> split <;> simp_all
      exact g.ptInjective q r f
    · intro f q; rw [Bocc, Bpt]
      by_cases hf : b.fifoCursor = f
      · subst hf
        simp only [if_true]
        by_cases hq : vp = q
        · simp [hq]
        · simp only [if_neg hq]
          constructor
          · intro hh; cases hh
          · intro hh; exact absurd (g.ptInjective vp q _ hvp hh) hq
      · simp only [if_neg hf]
        by_cases hq : vp = q
        · subst hq
          simp only [if_true]
          constructor
          · intro hh
            have := (g.occInverse f vp).mp hh
            rw [hvp] at this; cases this; exact absurd rfl hf
          · intro hh; cases hh
        · simp only [if_neg hq]; exact g.occInverse f q
    · intro i e hi
      rw [Bslot] at hi
      rw [Bpt, if_neg (Ne.symm hi.2)]
      exact g.tlbSubset i e hi.1
    · intro i j d e hi hj; rw [Bslot] at hi hj; exact g.tlbUnique i j d e hi.1 hj.1
    · intro i j d e hi hj; rw [Bslot] at hi hj; exact g.stampsOrdered.2 i j d e hi.1 hj.1
    · intro i e hi; rw [Bslot] at hi; rw [Bclk]
      exact ⟨(g.stampsOrdered.1 i e hi.1).1, h.fresh i e hi.1⟩
    · intro f q i; rw [Bocc, Bpm]
      split
      · intro hh; cases hh
      · exact g.mirrors f q i
    · rw [Bocc]; simp
    · rw [Bpt, hp]; simp
    · intro i e hi; rw [Bslot] at hi; exact hm i e hi.1
    · rw [Bcur, Bsf, e1, BitVec.toNat_add]
      have : (1#7).toNat = 1 := rfl
      omega
    · intro x
      have hx := x.isLt
      rw [Bsf, e1]
      have : x.toNat < min (b.statPageFaults.toNat + 1) 128 := by omega
      simp only [this, iff_true]
      by_cases hf : b.fifoCursor = x
      · right; exact hf.symm
      · left
        obtain ⟨y, hy⟩ := Option.ne_none_iff_exists'.mp (h1 x)
        simp [Block.occupied, Bocc, hf, hy]
    · rw [if_neg (by omega)]; exact hcur
    · intro q f hq; rw [Bpt]; split
      · exact .inr rfl
      · exact .inl hq

/-- A page fault that loads its page restores the promises. -/
theorem Block.good_afterFault {st : Store} {b : Block} (h : Block.Mid st b) {p} (hm : b.TlbMisses p) (hp : b.ptEntry p = none)
    (hc : b.statPageFaults ≠ Config.ctrMax) : (b.afterFault p (st.page p)).Good st := by
  have A := Block.allocated_afterAllocate h hm hp hc
  have e1 := add_one_toNat hc
  unfold Block.afterFault
  generalize (b.afterAllocate p).1 = fr at *
  generalize (b.afterAllocate p).2 = B at *
  generalize hL : loadPage p fr (st.page p) B = L
  have Lpt : ∀ q, L.ptEntry q = if p = q then some fr else B.ptEntry q := fun q => by rw [← hL, loadPage_ptEntry]
  have Locc : ∀ g, L.occEntry g = if fr = g then some p else B.occEntry g := fun q => by rw [← hL, loadPage_occEntry]
  have Lslot : ∀ i, L.slot i = B.slot i := fun q => by rw [← hL]; rfl
  have Lpm : L.pm = (writeFrame fr (st.page p) B).pm := by rw [← hL]; rfl
  generalize hC : insertTlb p fr b.clock L = C
  have Cpt : ∀ q, C.ptEntry q = if p = q then some fr else B.ptEntry q := fun q => by rw [← hC]; exact Lpt q
  have Cocc : ∀ q, C.occEntry q = if fr = q then some p else B.occEntry q := fun q => by rw [← hC]; exact Locc q
  have Cslot : ∀ i, C.slot i = if insertSlot L p = i then some ⟨p, fr, b.clock⟩ else B.slot i := fun i => by
    rw [← hC, insertTlb_slot, Lslot]
  have Cpm : C.pm = (writeFrame fr (st.page p) B).pm := by rw [← hC, ← hL]; rfl
  have Cclk : C.clock = B.clock := by rw [← hC, ← hL]; rfl
  have Csf : C.statPageFaults = B.statPageFaults := by rw [← hC, ← hL]; rfl
  have Csa : C.statAddresses = B.statAddresses := by rw [← hC, ← hL]; rfl
  have Csh : C.statTlbHits = B.statTlbHits := by rw [← hC, ← hL]; rfl
  have Ccur : C.fifoCursor = B.fifoCursor := by rw [← hC, ← hL]; rfl
  have nofr : ∀ q, B.ptEntry q ≠ some fr := fun q hq => by
    have := (A.occInv fr q).mpr hq; rw [A.empty] at this; cases this
  have nop : ∀ f, B.occEntry f ≠ some p := fun f hf => by
    have := (A.occInv f p).mp hf; rw [A.unm] at this; cases this
  refine ⟨?_, ?_, ?_, ?_, ?_, ?_, ?_, ?_, ?_, ?_⟩
  · intro q r f; rw [Cpt, Cpt]
    split <;> split
    · intros; simp_all
    · intro h1 h2; cases h1; exact absurd h2 (nofr r)
    · intro h1 h2; cases h2; exact absurd h1 (nofr q)
    · exact A.ptInj q r f
  · intro f q; rw [Cpt, Cocc]
    split <;> split
    · simp_all
    · constructor
      · intro hh; cases hh; simp_all
      · intro hh; subst_vars; exact absurd hh (nofr q)
    · constructor
      · intro hh; subst_vars; exact absurd hh (nop f)
      · intro hh; cases hh; simp_all
    · exact A.occInv f q
  · intro i e hi; rw [Cslot] at hi; rw [Cpt]
    split at hi
    · cases hi; simp
    · rw [if_neg (Ne.symm (A.miss i e hi))]; exact A.sub i e hi
  · intro i j d e hi hj hde
    rw [Cslot] at hi hj
    split at hi <;> split at hj
    · simp_all
    · cases hi; exact absurd hde.symm (A.miss j e hj)
    · cases hj; exact absurd hde (A.miss i d hi)
    · exact A.uniq i j d e hi hj hde
  · intro f
    rw [Csf, ← A.pre f]
    simp only [Block.occupied, Cocc]
    split
    · subst_vars; simp
    · have : f ≠ fr := Ne.symm ‹_›
      simp [this]
  · constructor
    · intro i e hi; rw [Cslot] at hi; rw [Cclk]
      split at hi
      · cases hi; rw [A.clk]; exact ⟨h.pos, BitVec.le_refl _⟩
      · have := A.fresh i e hi; simp only [BitVec.le_def, BitVec.lt_def] at this ⊢; exact ⟨this.1, by omega⟩
    · intro i j d e hi hj hde
      rw [Cslot] at hi hj
      split at hi <;> split at hj
      · simp_all
      · cases hi
        have := (A.fresh j e hj).2
        rw [← hde, A.clk] at this; simp at this
      · cases hj
        have := (A.fresh i d hi).2
        rw [hde, A.clk] at this; simp at this
      · exact A.stamps i j d e hi hj hde
  · show C.clock = C.statAddresses
    rw [Cclk, Csa, A.clk, A.sa]; exact h.good.clockCounts
  · show _ ≤ _
    have := h.room
    rw [Csh, Csf, Csa, A.sh, A.sf, A.sa, e1]; omega
  · intro f q i; rw [Cocc, Cpm, read_writeFrame]
    split
    · intro hh; cases hh; rw [Store.page_getElem]
    · exact A.mir f q i
  · show _ = _
    rw [Ccur, Csf]; exact A.cur

end Sys2Proof.Machine
end

