-- ==== Sys2Proof/Laws/PerInstr.lean ====
section
/-! SUPPORT. The families of statements that hold of every instruction as syntax, one lemma for each constructor. -/

namespace Sys2Proof.Laws.Carrier

/-- A command is carried in a command word and a micro-operation never is (30_encoding.md R91, R101). -/
def Statement (i : Instr) : Prop := i.isCommand = true ↔ ∃ w, encode i = .command w

theorem xlate (arg : Arg) : Statement (.xlate arg) := by
  simp [Statement, Instr.isCommand, encode]

theorem rdcsr (arg : Arg) : Statement (.rdcsr arg) := by
  simp [Statement, Instr.isCommand, encode]

theorem tlbLookup (page : Page) : Statement (.tlbLookup page) := by
  simp [Statement, Instr.isCommand, encode]

theorem tlbInsert (page : Page) (frame : Frame) (stamp : Counter) : Statement (.tlbInsert page frame stamp) := by
  simp [Statement, Instr.isCommand, encode]

theorem tlbInvalidate (page : Page) : Statement (.tlbInvalidate page) := by
  simp [Statement, Instr.isCommand, encode]

theorem ptLookup (page : Page) : Statement (.ptLookup page) := by
  simp [Statement, Instr.isCommand, encode]

theorem ptMap (page : Page) (frame : Frame) : Statement (.ptMap page frame) := by
  simp [Statement, Instr.isCommand, encode]

theorem ptUnmap (page : Page) : Statement (.ptUnmap page) := by
  simp [Statement, Instr.isCommand, encode]

theorem faAllocate (page : Page) : Statement (.faAllocate page) := by
  simp [Statement, Instr.isCommand, encode]

theorem faOccupy (frame : Frame) (page : Page) : Statement (.faOccupy frame page) := by
  simp [Statement, Instr.isCommand, encode]

theorem bsReadPage (page : Page) : Statement (.bsReadPage page) := by
  simp [Statement, Instr.isCommand, encode]

theorem pmWriteFrame (frame : Frame) (bytes : PageBytes) : Statement (.pmWriteFrame frame bytes) := by
  simp [Statement, Instr.isCommand, encode]

theorem pmReadByte (pa : PAddr) : Statement (.pmReadByte pa) := by
  simp [Statement, Instr.isCommand, encode]

theorem stRecordAccess : Statement .stRecordAccess := by
  simp [Statement, Instr.isCommand, encode]

theorem stRecordTlbHit : Statement .stRecordTlbHit := by
  simp [Statement, Instr.isCommand, encode]

theorem stRecordPageFault : Statement .stRecordPageFault := by
  simp [Statement, Instr.isCommand, encode]

end Sys2Proof.Laws.Carrier
end

