-- ==== Sys2Proof/Laws/Step.lean ====
section
/-! SUPPORT. Everything a step can do, said once; the page reads that the statements name; a command word decodes to a command. -/

namespace Sys2Proof.Machine

/-- A command word that decodes is XLATE or RDCSR. -/
theorem decode_command {w : CmdWord} {i : Instr} (h : decode (.command w) = .ok i) :
    (∃ a, i = .xlate a) ∨ ∃ a, i = .rdcsr a := by
  simp only [decode, decodeCommand] at h
  split at h
  · cases h
    exact .inl ⟨_, rfl⟩
  · split at h <;> cases h
    exact .inr ⟨_, rfl⟩

/-- The only reason a command word is refused. -/
theorem decode_command_error {w : CmdWord} {e : DecodeError} (h : decode (.command w) = .error e) :
    ∃ op, e = .reservedOpcode op := by
  simp only [decode, decodeCommand] at h
  split at h
  · cases h
  · split at h <;> cases h
    exact ⟨_, rfl⟩

/-- The only reason a micro-operation is refused. -/
theorem decode_uop_error {u : UopWord} {e : DecodeError} (h : decode (.uop u) = .error e) :
    ∃ uop, e = .unusedUop uop := by
  simp only [decode, decodeUop] at h
  split at h <;> cases h
  exact ⟨_, rfl⟩

/-- Everything a step that answers a next state can do: nothing, take the reset input, run an instruction, or answer a reserved
opcode. -/
theorem step_cases {s t : State} (h : step s = .next t) :
    (s.uopIssue = none ∧ (s.waiting = none → s.inputs = []) ∧ ¬ s.TakesReset ∧ t = s) ∨
    (∃ rest, s.uopIssue = none ∧ s.inputs = .rst :: rest ∧ t = applyReset { s with inputs := rest }) ∨
    (∃ i u, exec i u = .next t ∧ ¬ s.TakesReset ∧
      ((∃ w, s.uopIssue = some w ∧ decode (.uop w) = .ok i ∧ u = { s with uopIssue := none }) ∨
       (∃ w rest, s.uopIssue = none ∧ s.waiting = none ∧ s.inputs = .command w :: rest ∧ decode (.command w) = .ok i ∧
         u = { s with inputs := rest }))) ∨
    (∃ w rest, s.uopIssue = none ∧ s.waiting = none ∧ s.inputs = .command w :: rest ∧
      (∃ op, decode (.command w) = .error (.reservedOpcode op)) ∧ t = respond .errIllegal { s with inputs := rest }) := by
  unfold step fetch at h
  cases hu : s.uopIssue with
  | some u =>
    simp only [hu] at h
    cases hd : decode (.uop u) with
    | ok i =>
      rw [hd] at h
      exact .inr (.inr (.inl ⟨i, _, h, by rintro ⟨h1, -⟩; simp [hu] at h1, .inl ⟨u, rfl, hd, rfl⟩⟩))
    | error e =>
      obtain ⟨op, rfl⟩ := decode_uop_error hd
      rw [hd] at h
      cases h
  | none =>
    simp only [hu] at h
    cases hw : s.waiting with
    | some i =>
      cases hi : s.inputs with
      | nil =>
        simp only [hw, hi] at h
        cases h
        exact .inl ⟨rfl, nofun, by rintro ⟨-, r, h1⟩; simp [hi] at h1, rfl⟩
      | cons a rest =>
        cases a with
        | rst =>
          simp only [hw, hi] at h
          cases h
          exact .inr (.inl ⟨rest, rfl, rfl, rfl⟩)
        | command w =>
          simp only [hw, hi] at h
          cases h
          exact .inl ⟨rfl, nofun, by rintro ⟨-, r, h1⟩; simp [hi] at h1, rfl⟩
    | none =>
      cases hi : s.inputs with
      | nil =>
        simp only [hw, hi] at h
        cases h
        exact .inl ⟨rfl, fun _ => rfl, by rintro ⟨-, r, h1⟩; simp [hi] at h1, rfl⟩
      | cons a rest =>
        cases a with
        | rst =>
          simp only [hw, hi] at h
          cases h
          exact .inr (.inl ⟨rest, rfl, rfl, rfl⟩)
        | command w =>
          simp only [hw, hi] at h
          cases hd : decode (.command w) with
          | ok i =>
            rw [hd] at h
            exact .inr (.inr (.inl ⟨i, _, h, by rintro ⟨-, r, h1⟩; simp [hi] at h1, .inr ⟨w, rest, rfl, rfl, rfl, hd, rfl⟩⟩))
          | error e =>
            obtain ⟨op, rfl⟩ := decode_command_error hd
            rw [hd] at h
            cases h
            exact .inr (.inr (.inr ⟨w, rest, rfl, rfl, rfl, ⟨op, hd⟩, rfl⟩))

/-- While an instruction is in progress, every step but one that takes the reset input leaves the state as it is. -/
theorem step_of_waiting {s : State} (hu : s.uopIssue = none) (hw : s.waiting ≠ none) (hi : ∀ rest, s.inputs ≠ .rst :: rest) :
    step s = .next s := by
  obtain ⟨i, hw⟩ := Option.ne_none_iff_exists'.mp hw
  unfold step fetch
  rw [hu, hw]
  cases h : s.inputs with
  | nil => rfl
  | cons a rest =>
    cases a with
    | rst => exact absurd h (hi rest)
    | command w => rfl

/-- The page read of `State.StoreDelivers`. -/
theorem readPage_of_delivers {s : State} {p : Page} (h : s.StoreDelivers p) :
    readPage p s = (.delivered (s.store.page p), { s with bsAnswers := s.bsAnswers.tail }) := by
  rcases s with ⟨b, i, r, w, st, a, u, v, n⟩
  obtain ⟨h1 | ⟨rest, h1⟩, h2⟩ := h <;> simp only at h1 h2 <;> subst h1 <;> simp [readPage, Store.holds, h2]

/-- The page read of `State.StoreSilent`. -/
theorem readPage_of_silent {s : State} {p : Page} (h : s.StoreSilent) :
    readPage p s = (.unanswered, { s with bsAnswers := s.bsAnswers.tail }) := by
  rcases s with ⟨b, i, r, w, st, a, u, v, n⟩
  obtain ⟨rest, h1⟩ := h
  simp only at h1
  subst h1
  rfl

/-- The page read of `State.StoreFails`. -/
theorem readPage_of_fails {s : State} {p : Page} (h : s.StoreFails p) :
    readPage p s = (.failed, { s with bsAnswers := s.bsAnswers.tail }) := by
  rcases s with ⟨b, i, r, w, st, a, u, v, n⟩
  rcases h with ⟨rest, h1⟩ | ⟨h1 | ⟨rest, h1⟩, h2⟩
  · simp only at h1
    subst h1
    rfl
  · simp only at h1 h2
    subst h1
    simp [readPage, Store.holds, Nat.not_le.mpr h2]
  · simp only at h1 h2
    subst h1
    simp [readPage, Store.holds, Nat.not_le.mpr h2]

end Sys2Proof.Machine
end

