-- ==== Sys2Proof/Tests/Slice0.lean ====
section
/-! SUPPORT. The model's own tests. Expected results are words of 95_test_vectors.md (named in each comment) and rows of
spec/opcode_table.json; below them, for every statement that has hypotheses, a concrete state and operands that meet them. -/

open Sys2Proof Sys2Proof.Machine

namespace Sys2Proof.Tests

-- One theorem at a time: many kernel evaluations waiting for one another hold a thread and its stack each.
set_option Elab.async false

/-! ### Helpers -/

/-- The outcome is a next state of which `p` holds. -/
def answers (o : Host.Outcome State Fault Refusal) (p : State → Bool) : Bool :=
  match o with
  | .next t => p t
  | .fault _ => false
  | .refused _ => false

theorem exists_of_answers {o : Host.Outcome State Fault Refusal} {p : State → Bool} (h : answers o p = true) :
    ∃ t, o = .next t ∧ p t = true := by
  cases o with
  | next t => exact ⟨t, rfl, h⟩
  | fault r => exact absurd h Bool.false_ne_true
  | refused r => exact absurd h Bool.false_ne_true

/-- The last response is this word. -/
def responds (w : RespWord) (t : State) : Bool := t.responses.head?.map Response.word == some w

/-- The reset state with some bytes of the test store of 95_test_vectors.md attached: byte `i` of page `p` is
`(p + i) mod 256`. -/
def withBytes (addresses : List Nat) : State :=
  { State.reset with
    store := { bytes := addresses.map fun a => (a, BitVec.ofNat 8 (a / 256 + a % 256)), size := 65536 } }

/-- The reset state with another block. -/
def withBlock (b : Block) : State := State.reset.withBlock b

/-- 95_test_vectors.md T4a: slot 3 holds page 7 in frame 2 with stamp 5, and the clock is 9. -/
def oneSlot : Block := { Block.reset.setSlot 3 (some ⟨7#8, 2#7, 5#32⟩) with clock := 9#32, statAddresses := 9#32 }

/-- All 16 slots valid with pages 0 to 15; slots 5 and 9 have stamp 3, every other a greater one (T7). -/
def fullTlb : Block :=
  { Block.reset with
    tlb := Vector.ofFn fun i : Fin 16 =>
      some ⟨BitVec.ofNat 8 i.val, BitVec.ofNat 7 i.val, if i.val = 5 ∨ i.val = 9 then 3#32 else 10#32⟩ }

/-- T11c: every frame `f` holds page `f`, the cursor is 0, and slot 2 holds page 0. -/
def fullFrames : Block :=
  { Block.reset.setSlot 2 (some ⟨0#8, 0#7, 7#32⟩) with
    pt := Vector.ofFn fun p : Fin 256 => if p.val < 128 then some (BitVec.ofNat 7 p.val) else none
    occ := Vector.ofFn fun f : Fin 128 => some (BitVec.ofNat 8 f.val)
    clock := 129#32, statAddresses := 129#32, statPageFaults := 128#32 }

/-! ### Decoding: every constructor, from words written out by hand -/

/-- 95_test_vectors.md T1a. -/
theorem test_decode_xlate : decode (.command 0x112345678#34) = .ok (.xlate 0x12345678#32) := by decide

/-- 95_test_vectors.md T14d. -/
theorem test_decode_rdcsr : decode (.command 0x2FFFFFF01#34) = .ok (.rdcsr 0xFFFFFF01#32) := by decide

/-- 95_test_vectors.md T15a to T15c. -/
theorem test_decode_reserved_opcodes :
    decode (.command 0x000000000#34) = .error (.reservedOpcode 0b00#2) ∧
    decode (.command 0x3ABCD1234#34) = .error (.reservedOpcode 0b11#2) := by decide

/-- A micro-operation with every operand line set. -/
def lines (uop : BitVec 4) : UopWord :=
  { uop := uop, page := 0xA5#8, frame := 0x55#7, stamp := 0xDEADBEEF#32
    bytes := Vector.ofFn fun i : Fin 256 => BitVec.ofNat 8 i.val, pa := 0x5A5A#15 }

/-- The TLB's identifiers of 30_encoding.md R101. -/
theorem test_decode_tlb_uops :
    decode (.uop (lines 0b0001#4)) = .ok (.tlbLookup 0xA5#8) ∧
    decode (.uop (lines 0b0010#4)) = .ok (.tlbInsert 0xA5#8 0x55#7 0xDEADBEEF#32) ∧
    decode (.uop (lines 0b0011#4)) = .ok (.tlbInvalidate 0xA5#8) := ⟨rfl, rfl, rfl⟩

/-- The page table's and the frame allocator's identifiers of 30_encoding.md R101. -/
theorem test_decode_pt_and_fa_uops :
    decode (.uop (lines 0b0100#4)) = .ok (.ptLookup 0xA5#8) ∧
    decode (.uop (lines 0b0101#4)) = .ok (.ptMap 0xA5#8 0x55#7) ∧
    decode (.uop (lines 0b0110#4)) = .ok (.ptUnmap 0xA5#8) ∧
    decode (.uop (lines 0b0111#4)) = .ok (.faAllocate 0xA5#8) ∧
    decode (.uop (lines 0b1000#4)) = .ok (.faOccupy 0x55#7 0xA5#8) := ⟨rfl, rfl, rfl, rfl, rfl⟩

/-- The memories' identifiers of 30_encoding.md R101. -/
theorem test_decode_memory_uops :
    decode (.uop (lines 0b1001#4)) = .ok (.bsReadPage 0xA5#8) ∧
    decode (.uop (lines 0b1010#4)) = .ok (.pmWriteFrame 0x55#7 (lines 0b1010#4).bytes) ∧
    decode (.uop (lines 0b1011#4)) = .ok (.pmReadByte 0x5A5A#15) := ⟨rfl, rfl, rfl⟩

/-- The counters' identifiers, and the two unused ones, of 30_encoding.md R101. -/
theorem test_decode_st_and_unused_uops :
    decode (.uop (lines 0b1100#4)) = .ok .stRecordAccess ∧
    decode (.uop (lines 0b1101#4)) = .ok .stRecordTlbHit ∧
    decode (.uop (lines 0b1110#4)) = .ok .stRecordPageFault ∧
    decode (.uop (lines 0b0000#4)) = .error (.unusedUop 0b0000#4) ∧
    decode (.uop (lines 0b1111#4)) = .error (.unusedUop 0b1111#4) := ⟨rfl, rfl, rfl, rfl, rfl⟩

/-- Rows of spec/opcode_table.json. -/
theorem test_table_words :
    decodeTableWord 40 0x100000000 = some (.xlate 0#32) ∧ decodeTableWord 40 0x200000000 = some (.rdcsr 0#32) ∧
    decodeTableWord 8 0b0010 = some (.tlbInsert 0#8 0#7 0#32) ∧ decodeTableWord 8 0b1110 = some .stRecordPageFault ∧
    decodeTableWord 40 0x300000000 = none ∧ decodeTableWord 8 0b1111 = none := by decide +kernel

/-! ### WellFormed -/

/-- The one check refuses a reserved control-register number (30_encoding.md R98), and ignores the bits above it (R99). -/
theorem test_ill_formed :
    (Instr.rdcsr 4#32).wellFormed = false ∧ (Instr.rdcsr 0x000000FF#32).wellFormed = false ∧
    (Instr.rdcsr 0xFFFFFF03#32).wellFormed = true := by decide

/-! ### One step of each instruction -/

/-- T1b: from reset, `XLATE -1` faults into frame 0 and answers `0x0_02FE_00FF`. -/
theorem test_xlate_fault : answers (exec (.xlate 0xFFFFFFFF#32) (withBytes [65535])) (fun t =>
    responds 0x002FE00FF#34 t && t.block.slot 0 == some ⟨255#8, 0#7, 1#32⟩ && t.block.clock == 1#32 &&
      t.block.statPageFaults == 1#32 && t.block.occEntry 0#7 == some 255#8) = true := by decide +kernel

/-- T11c and D15 through an XLATE: with every frame occupied, page 200 takes frame 0 from page 0, whose slot is the victim's. -/
theorem test_xlate_eviction : answers (exec (.xlate 0x0000C800#32) ((withBytes [51200]).withBlock fullFrames)) (fun t =>
    responds 0x002C80000#34 t && t.block.ptEntry 0#8 == none && t.block.ptEntry 200#8 == some 0#7 &&
      t.block.fifoCursor == 1#7 && t.block.slot 2 == none && t.block.slot 0 == some ⟨200#8, 0#7, 130#32⟩) = true := by
  decide +kernel

/-- T14c. -/
theorem test_rdcsr_reserved : answers (exec (.rdcsr 4#32) State.reset) (responds 0x100000000#34) = true := by
  decide +kernel

/-- T16d, its last part: STATUS after a clock overflow. -/
theorem test_rdcsr_status : answers (exec (.rdcsr 3#32) (withBlock { Block.reset with status := ⟨true, .ctrOverflow⟩ }))
    (responds 0x000000005#34) = true := by decide +kernel

/-- T4a. -/
theorem test_tlb_lookup_hit : answers (exec (.tlbLookup 7#8) (withBlock oneSlot)) (fun t =>
    t.uopResult == .frame (some 2#7) && t.block.slot 3 == some ⟨7#8, 2#7, 9#32⟩) = true := by decide +kernel

/-- T4b. -/
theorem test_tlb_lookup_miss : answers (exec (.tlbLookup 8#8) (withBlock oneSlot)) (fun t =>
    t.uopResult == .frame none && t.block.slot 3 == some ⟨7#8, 2#7, 5#32⟩) = true := by decide +kernel

/-- T7: the lowest of the two least stamps. -/
theorem test_tlb_insert_lru : answers (exec (.tlbInsert 40#8 1#7 50#32) (withBlock fullTlb)) (fun t =>
    t.block.slot 5 == some ⟨40#8, 1#7, 50#32⟩ && t.block.slot 9 == some ⟨9#8, 9#7, 3#32⟩) = true := by decide +kernel

/-- T8: a page that is there is written in place, though slot 0 is invalid. -/
theorem test_tlb_insert_in_place :
    answers (exec (.tlbInsert 12#8 4#7 20#32) (withBlock (Block.reset.setSlot 6 (some ⟨12#8, 3#7, 8#32⟩)))) (fun t =>
      t.block.slot 6 == some ⟨12#8, 4#7, 20#32⟩ && t.block.slot 0 == none) = true := by decide +kernel

/-- T5a, its first part. -/
theorem test_tlb_invalidate : answers (exec (.tlbInvalidate 4#8) (withBlock fullTlb)) (fun t =>
    t.block.slot 4 == none && t.block.slot 3 == fullTlb.slot 3) = true := by decide +kernel

/-- T9. -/
theorem test_tlb_invalidate_absent : answers (exec (.tlbInvalidate 33#8) (withBlock fullTlb)) (fun t =>
    t.block.tlb == fullTlb.tlb) = true := by decide +kernel

/-- T10a, its second part. -/
theorem test_pt_lookup : answers (exec (.ptLookup 255#8) State.reset) (fun t => t.uopResult == .frame none) = true := by
  decide +kernel

/-- T10e. -/
theorem test_pt_map : answers (exec (.ptMap 255#8 127#7) State.reset) (fun t =>
    t.block.ptEntry 255#8 == some 127#7 && t.block.ptEntry 254#8 == none) = true := by decide +kernel

/-- T10c. -/
theorem test_pt_unmap : answers (exec (.ptUnmap 5#8) (withBlock (Block.reset.setPtEntry 5#8 (some 3#7)))) (fun t =>
    t.block.ptEntry 5#8 == none) = true := by decide +kernel

/-- T11c. -/
theorem test_fa_allocate_evicts : answers (exec (.faAllocate 200#8) (withBlock fullFrames)) (fun t =>
    t.uopResult == .frame (some 0#7) && t.block.fifoCursor == 1#7 && t.block.ptEntry 0#8 == none &&
      t.block.slot 2 == none && t.block.occEntry 0#7 == none) = true := by decide +kernel

/-- T11d: the cursor wraps. -/
theorem test_fa_allocate_wraps :
    answers (exec (.faAllocate 200#8)
      (withBlock { fullFrames.setOccEntry 127#7 (some 60#8) with fifoCursor := 127#7 })) (fun t =>
        t.uopResult == .frame (some 127#7) && t.block.fifoCursor == 0#7 && t.block.ptEntry 60#8 == none &&
          t.block.occEntry 127#7 == none) = true := by decide +kernel

/-- T11f. -/
theorem test_fa_occupy : answers (exec (.faOccupy 0#7 9#8) State.reset) (fun t =>
    t.block.occEntry 0#7 == some 9#8 && t.block.occEntry 1#7 == none) = true := by decide +kernel

/-- T12a. -/
theorem test_bs_read_page : answers (exec (.bsReadPage 2#8) (withBytes [512, 765, 766, 767])) (fun t =>
    match t.uopResult with
    | .page (some d) => d[0] == 2#8 && d[253] == 255#8 && d[254] == 0#8 && d[255] == 1#8
    | _ => false) = true := by decide +kernel

/-- T12c. -/
theorem test_bs_read_page_fails : answers (exec (.bsReadPage 2#8) { State.reset with bsAnswers := [.fail] }) (fun t =>
    t.uopResult == .page none) = true := by decide +kernel

/-- T13a. -/
theorem test_pm_write_frame :
    answers (exec (.pmWriteFrame 1#7 (Vector.ofFn fun i : Fin 256 => BitVec.ofNat 8 i.val)) State.reset) (fun t =>
      Memory.read t.block.pm 256 == some 0#8 && Memory.read t.block.pm 511 == some 255#8 &&
        Memory.read t.block.pm 255 == none && Memory.read t.block.pm 512 == none) = true := by decide +kernel

/-- T13b. -/
theorem test_pm_read_byte : answers (exec (.pmReadByte 0x01FF#15) (withBlock { Block.reset with pm := [(511, 0xFF#8)] }))
    (fun t => t.uopResult == .byte 0xFF#8) = true := by decide +kernel

/-- The worked example of 45_stats_and_csr.md R200. -/
theorem test_st_record_access : answers (exec .stRecordAccess State.reset) (fun t =>
    t.block.statAddresses == 1#32 && t.block.clock == 0#32) = true := by decide +kernel

/-- 45_stats_and_csr.md R201. -/
theorem test_st_record_tlb_hit : answers (exec .stRecordTlbHit State.reset) (fun t =>
    t.block.statTlbHits == 1#32 && t.block.statAddresses == 0#32) = true := by decide +kernel

/-- 45_stats_and_csr.md R202. -/
theorem test_st_record_page_fault : answers (exec .stRecordPageFault State.reset) (fun t =>
    t.block.statPageFaults == 1#32 && t.block.statTlbHits == 0#32) = true := by decide +kernel

/-! ### The step, the fatal path, reset, the host's text -/

/-- T14a through the step: a row's word placed where the step fetches runs first after reset. -/
theorem test_step_runs_the_placed_word :
    answers (step (State.reset.withFetchWord 40 0x200000003)) (responds 0x000000000#34) = true ∧
    answers (step (State.reset.withFetchWord 40 0x100000000)) (fun t => t.block.statPageFaults == 1#32) = true ∧
    answers (step (State.reset.withFetchWord 8 0b1000)) (fun t => t.block.occEntry 0#7 == some 0#8) = true := by
  decide +kernel

/-- T15a, T15b. -/
theorem test_reserved_opcodes :
    answers (step (State.reset.withFetchWord 40 0x000000000)) (responds 0x100000000#34) = true ∧
    answers (step { State.reset with inputs := [.command 0x000000000#34] }) (responds 0x100000000#34) = true ∧
    answers (step { State.reset with inputs := [.command 0x300000000#34] }) (responds 0x100000000#34) = true := by
  decide +kernel

/-- T16a. -/
theorem test_failed_read : answers (exec (.xlate 0#32) { State.reset with bsAnswers := [.fail] }) (fun t =>
    responds 0x200000000#34 t && t.block.status == ⟨true, .bsReadFailure⟩) = true := by decide +kernel

/-- T16d. -/
theorem test_clock_overflow :
    answers (exec (.xlate 0#32) (withBlock { Block.reset with clock := 0xFFFFFFFF#32, statAddresses := 0xFFFFFFFF#32 }))
      (fun t => responds 0x200000000#34 t && t.block.status == ⟨true, .ctrOverflow⟩ &&
        t.block.statAddresses == 0xFFFFFFFF#32) = true := by decide +kernel

/-- A page read that is never answered uses up its own choice and no other (44_backing_store_and_physical_memory.md R185, R187),
and its page stays presented (R188). -/
theorem test_silent_read : answers (exec (.xlate 0x0301#32) { State.reset with bsAnswers := [.silent, .deliver] })
    (fun t => t.bsAnswers == [.deliver] && t.bsRequest == some 3#8 && t.responses == [] && t.block.clock == 0#32) = true := by
  decide +kernel

/-- A command in progress is abandoned by the reset input (70_reset_and_hazards.md R246). -/
theorem test_reset_abandons : answers (step { withBlock fullFrames with waiting := some (.xlate 0#32), inputs := [.rst] })
    (fun t => t.block.slot 2 == none && t.block.occEntry 127#7 == none && t.waiting == none && t.responses == []) = true := by decide +kernel

/-- The examples of 30_encoding.md R103, and T14d's number in decimal. -/
theorem test_lines :
    (readLine ['X', 'L', 'A', 'T', 'E', ' ', '0', 'x', '1', '0', '0', '0', '1']).bind Line.commands =
      some [0x100010001#34] ∧
    (readLine ['R', 'D', 'C', 'S', 'R', ' ', 'S', 'T', 'A', 'T', 'U', 'S', ' ', '#', '!']).bind Line.commands =
      some [0x200000003#34] ∧
    (readLine ['R', 'D', 'S', 'T', 'A', 'T', 'S']).bind Line.commands =
      some [0x200000001#34, 0x200000000#34, 0x200000002#34] := by decide +kernel

/-- The examples of 30_encoding.md R106, and the stop at a token that is no integer (R104). -/
theorem test_address_file :
    addressFileText ['-', '1', '\n', '-', '3', '2', '7', '6', '8', ' ', '6', '5', '5', '3', '7', ' ', '7', 'x', ' ', '5'] =
      [0x1FFFFFFFF#34, 0x1FFFF8000#34, 0x100010001#34] := by decide +kernel

/-- T14f. -/
theorem test_rates :
    hitRate { Block.reset with statAddresses := 4#32, statTlbHits := 1#32, statPageFaults := 2#32 } = 25 ∧
    faultRate { Block.reset with statAddresses := 4#32, statTlbHits := 1#32, statPageFaults := 2#32 } = 50 := by
  decide +kernel

/-! ### Witnesses: states and operands that meet the hypotheses of the statements -/

/-- A state of a run with one page resident: what an XLATE of page 0 leaves. -/
def onePage : State :=
  { withBytes [5, 258] with block := Block.reset.started.afterFault 0#8 ((withBytes [5, 258]).store.page 0#8) }

theorem good_reset (st : Store) : Block.reset.Good st where
  ptInjective p q f h := by simp at h
  occInverse f p := by simp
  tlbSubset i e h := by simp at h
  tlbUnique i j d e h := by simp at h
  occPrefix f := by
    rw [Block.occupied, Block.reset_occEntry]
    simp [Block.reset]
  stampsOrdered := ⟨fun i e h => by simp at h, fun i j d e h => by simp at h⟩
  clockCounts := rfl
  countersBounded := Nat.le_refl 0
  mirrors f p i h := by simp at h
  cursorCounts := rfl

theorem witness_inv_onePage : onePage.Inv where
  pmWf := ⟨by decide +kernel, by decide +kernel⟩
  noUop := rfl
  waitsXlate i h := by cases h
  waitsLive _ := rfl
  statusCoded := ⟨fun _ => by decide +kernel, fun _ => by decide +kernel⟩
  good _ := Block.good_afterFault (Block.mid_started (good_reset _) (by decide))
    (fun i e h => by simp at h) (Block.reset_ptEntry 0#8) (by decide)

/-- OpcodePicksCommand: each of the three clauses, at both ends of the third. -/
theorem witness_OpcodePicksCommand :
    (0x1FFFFFFFF#34).toNat / 2 ^ 32 = 1 ∧ (0x200000000#34).toNat / 2 ^ 32 = 2 ∧
    (0x000000000#34).toNat / 2 ^ 32 = 0 ∧ (0x3FFFFFFFF#34).toNat / 2 ^ 32 = 3 := by decide

/-- IdentifierPicksUop: every identifier is some word's. -/
theorem witness_IdentifierPicksUop : ∀ k : BitVec 4, (lines k).uop = k := fun _ => rfl

/-- UpperOperandBitsIgnored: different operands that agree where each command looks. -/
theorem witness_UpperOperandBitsIgnored :
    (0x00010001#32).extractLsb' 0 16 = (0x00000001#32).extractLsb' 0 16 ∧
    (0xFFFFFF01#32).extractLsb' 0 8 = (0x00000001#32).extractLsb' 0 8 := by decide

/-- ReservedOpcodeAnswered: each reserved opcode, the second while halted. -/
theorem witness_ReservedOpcodeAnswered :
    ∃ s t : State, s.uopIssue = none ∧ s.waiting = none ∧ s.inputs = [.command 0x000000000#34] ∧
      (0x000000000#34).extractLsb' 32 2 = 0b00#2 ∧ t.uopIssue = none ∧ t.waiting = none ∧
      t.block.status.halted = true ∧ t.inputs = [.command 0x3ABCD1234#34] ∧
      (0x3ABCD1234#34).extractLsb' 32 2 = 0b11#2 :=
  ⟨{ State.reset with inputs := [.command 0x000000000#34] },
    { withBlock { Block.reset with status := ⟨true, .ctrOverflow⟩ } with inputs := [.command 0x3ABCD1234#34] },
    rfl, rfl, rfl, by decide, rfl, rfl, rfl, rfl, by decide⟩

/-- ReservedCsrNumberAnswered and the last clause of RdcsrAnswersTheRegister, at both ends of the range. -/
theorem witness_ReservedCsrNumberAnswered :
    4 ≤ ((4#32).extractLsb' 0 8).toNat ∧ 4 ≤ ((0xFFFFFFFF#32).extractLsb' 0 8).toNat := by decide

/-- RdcsrAnswersTheRegister: each defined number, and each code of `err`. -/
theorem witness_RdcsrAnswersTheRegister :
    (0#32).extractLsb' 0 8 = 0#8 ∧ (0xFFFFFF01#32).extractLsb' 0 8 = 1#8 ∧ (2#32).extractLsb' 0 8 = 2#8 ∧
    (3#32).extractLsb' 0 8 = 3#8 ∧ ∀ e : Err, (withBlock { Block.reset with status := ⟨true, e⟩ }).block.status.err = e :=
  ⟨by decide, by decide, by decide, by decide, fun _ => rfl⟩

theorem oneSlot_hit : oneSlot.TlbHits 7#8 3 ⟨7#8, 2#7, 5#32⟩ :=
  have h := tlbFind_eq_some.mp (show tlbFind oneSlot 7#8 = some (3, ⟨7#8, 2#7, 5#32⟩) by decide +kernel)
  ⟨h.1.1, h.1.2, h.2⟩

theorem oneSlot_misses : oneSlot.TlbMisses 8#8 :=
  tlbFind_eq_none.mp (by decide +kernel)

/-- XlateOnTlbHit. -/
theorem witness_XlateOnTlbHit :
    (withBlock oneSlot).Live ∧ oneSlot.statTlbHits ≠ 0xFFFFFFFF#32 ∧
    oneSlot.TlbHits ((0x0000075A#32).extractLsb' 8 8) 3 ⟨7#8, 2#7, 5#32⟩ :=
  ⟨⟨rfl, by decide +kernel, by decide +kernel⟩, by decide +kernel, oneSlot_hit⟩

/-- XlateOnTableHit. -/
theorem witness_XlateOnTableHit :
    (withBlock (oneSlot.setPtEntry 8#8 (some 1#7))).Live ∧
    (oneSlot.setPtEntry 8#8 (some 1#7)).TlbMisses ((0x00000800#32).extractLsb' 8 8) ∧
    (oneSlot.setPtEntry 8#8 (some 1#7)).ptEntry ((0x00000800#32).extractLsb' 8 8) = some 1#7 :=
  ⟨⟨rfl, by decide +kernel, by decide +kernel⟩, oneSlot_misses, by decide +kernel⟩

theorem reset_faults (p : Page) : State.reset.Faults p :=
  ⟨fun i e h => absurd ((Block.reset_slot i).symm.trans h) nofun, Block.reset_ptEntry p, by decide⟩

/-- XlateOnFaultWithFreeFrame: from reset, with the store's answer given and with none left. -/
theorem witness_XlateOnFaultWithFreeFrame :
    State.reset.Live ∧ State.reset.Faults ((0x0000FFFF#32).extractLsb' 8 8) ∧
    State.reset.StoreDelivers ((0x0000FFFF#32).extractLsb' 8 8) ∧ State.reset.block.occEntry 0#7 = none ∧
    (∀ g < (0#7 : Frame), State.reset.block.occEntry g ≠ none) ∧
    ({ State.reset with bsAnswers := [.deliver] } : State).StoreDelivers 255#8 :=
  ⟨⟨rfl, by decide, by decide⟩, reset_faults _, ⟨.inl rfl, by decide⟩, Block.reset_occEntry 0#7,
    fun g hg => absurd hg (BitVec.not_lt_zero), ⟨.inr ⟨[], rfl⟩, by decide⟩⟩

theorem fullFrames_full : ∀ g : Frame, fullFrames.occEntry g ≠ none :=
  freeFrame_eq_none.mp (by decide +kernel)

theorem fullFrames_misses : fullFrames.TlbMisses 200#8 :=
  tlbFind_eq_none.mp (by decide +kernel)

/-- XlateOnFaultWithEviction and FaAllocateEvictsAtTheCursor. -/
theorem witness_XlateOnFaultWithEviction :
    (withBlock fullFrames).Live ∧ (withBlock fullFrames).Faults ((0x0000C800#32).extractLsb' 8 8) ∧
    (withBlock fullFrames).StoreDelivers ((0x0000C800#32).extractLsb' 8 8) ∧ (∀ g, fullFrames.occEntry g ≠ none) ∧
    fullFrames.occEntry fullFrames.fifoCursor = some 0#8 :=
  ⟨⟨rfl, by decide +kernel, by decide +kernel⟩, ⟨fullFrames_misses, by decide +kernel, by decide +kernel⟩,
    ⟨.inl rfl, by decide⟩, fullFrames_full, by decide +kernel⟩

/-- XlateWaitsForSilentStore: with a command behind it, and with the reset input behind it. -/
theorem witness_XlateWaitsForSilentStore :
    ∃ s t : State, s.Live ∧ s.Faults 0#8 ∧ s.StoreSilent ∧ s.uopIssue = none ∧ (∀ rest, s.inputs ≠ .rst :: rest) ∧
      t.Live ∧ t.Faults 0#8 ∧ t.StoreSilent ∧ t.uopIssue = none ∧ t.inputs = [.rst] :=
  ⟨{ State.reset with bsAnswers := [.silent] }, { State.reset with bsAnswers := [.silent], inputs := [.rst] },
    ⟨rfl, by decide, by decide⟩, reset_faults _, ⟨[], rfl⟩, rfl, nofun,
    ⟨rfl, by decide, by decide⟩, reset_faults _, ⟨[], rfl⟩, rfl, rfl⟩

/-- What an OK response of this kind and value is. -/
def okResponse (s : State) (k : Kind) (v : Byte) (pa : PAddr) (t : State) : Bool :=
  t.responses == .translated k v pa :: s.responses

/-- The premises that the statements about an XLATE answered OK share, in a state of a run, for a page fault, and for a TLB
hit: XlateInstallsItsPage, FaultExactlyWhenUnmapped, TranslationReturnsStoreByte, FaultsTakeFramesInFifoOrder,
RetranslationHits, XlateIsItsMicroOperations, OnlyXlateAdvancesTheClock. -/
theorem witness_xlate_answered_ok :
    onePage.Inv ∧ onePage.block.status.halted = false ∧ onePage.block.clock ≠ 0xFFFFFFFF#32 ∧
    (∃ t, exec (.xlate 0x00000102#32) onePage = .next t ∧
      (okResponse onePage .pageFault 3#8 0x0102#15 t && t.block.clock != 0xFFFFFFFF#32) = true) ∧
    (∃ t, exec (.xlate 0x00000005#32) onePage = .next t ∧ okResponse onePage .tlbHit 5#8 0x0005#15 t = true) ∧
    (0x00000103#32).extractLsb' 8 8 = (0x00000102#32).extractLsb' 8 8 :=
  ⟨witness_inv_onePage, by decide +kernel, by decide +kernel, exists_of_answers (by decide +kernel),
    exists_of_answers (by decide +kernel), by decide⟩

/-- FaultExactlyWhenUnmapped and XlateIsItsMicroOperations on a page-table hit, the third kind. -/
theorem witness_table_hit_answered_ok :
    ∃ t, exec (.xlate 0x00000800#32) (withBlock { oneSlot.setPtEntry 8#8 (some 1#7) with pm := [(256, 9#8)] }) = .next t ∧
      okResponse State.reset .tableHit 9#8 0x0100#15 t = true :=
  exists_of_answers (by decide +kernel)

/-- OnlyTheseMakeXlateFatal: each of its three cases happens. -/
theorem witness_OnlyTheseMakeXlateFatal :
    (∃ t, exec (.xlate 0#32) (withBlock { Block.reset with status := ⟨true, .ctrOverflow⟩ }) = .next t ∧
      (t.responses == [.errFatal]) = true) ∧
    (∃ t, exec (.xlate 0#32) (withBlock { Block.reset with clock := 0xFFFFFFFF#32 }) = .next t ∧
      (t.responses == [.errFatal]) = true) ∧
    (∃ t, exec (.xlate 0#32) { State.reset with bsAnswers := [.fail] } = .next t ∧
      (t.responses == [.errFatal]) = true) :=
  ⟨exists_of_answers (by decide +kernel), exists_of_answers (by decide +kernel), exists_of_answers (by decide +kernel)⟩

/-- TlbLookupStampsOrMisses: both clauses. -/
theorem witness_TlbLookupStampsOrMisses :
    oneSlot.TlbHits 7#8 3 ⟨7#8, 2#7, 5#32⟩ ∧ oneSlot.TlbMisses 8#8 := ⟨oneSlot_hit, oneSlot_misses⟩

/-- TlbInvalidateClearsThePage: a slot of each kind. -/
theorem witness_TlbInvalidateClearsThePage :
    oneSlot.slot 3 = some ⟨7#8, 2#7, 5#32⟩ ∧ oneSlot.slot 15 = none := by decide +kernel

theorem oneSlot_unique : oneSlot.TlbUnique := by
  intro i j d e hi hj _
  have h : ∀ k : Fin 16, oneSlot.slot k ≠ none → k = 3 := by decide +kernel
  rw [h i (by simp [hi]), h j (by simp [hj])]

/-- TlbCapacity: every premise, an invalid slot beside a missing page, a page that is there, a full TLB. -/
theorem witness_TlbCapacity :
    oneSlot.TlbMisses 8#8 ∧ (∃ i, oneSlot.slot i = none) ∧ ¬ oneSlot.TlbMisses 7#8 ∧ oneSlot.TlbUnique ∧
    (∀ i, fullTlb.slot i ≠ none) ∧ fullTlb.TlbMisses 40#8 :=
  ⟨oneSlot_misses, ⟨0, by decide +kernel⟩, fun h => h 3 _ oneSlot_hit.1 rfl, oneSlot_unique,
    invalidSlot_eq_none.mp (by decide +kernel), tlbFind_eq_none.mp (by decide +kernel)⟩

/-- FaAllocateTakesLowestEmptyFrame: the last frame is the lowest empty one. -/
theorem witness_FaAllocateTakesLowestEmptyFrame :
    (fullFrames.setOccEntry 127#7 none).occEntry 127#7 = none ∧
    ∀ g < (127#7 : Frame), (fullFrames.setOccEntry 127#7 none).occEntry g ≠ none :=
  freeFrame_eq_some.mp (by decide +kernel)

/-- BsReadPageDelivers, at the last page of the store. -/
theorem witness_BsReadPageDelivers :
    State.reset.StoreDelivers 255#8 ∧ ({ State.reset with bsAnswers := [.deliver] } : State).StoreDelivers 0#8 :=
  ⟨⟨.inl rfl, by decide⟩, ⟨.inr ⟨[], rfl⟩, by decide⟩⟩

/-- BsReadPageFails and FailedReadTakesTheFatalPath: the environment fails the read; a store one byte short of the page, with
no choice left and with the choice to deliver. -/
theorem witness_StoreFails :
    ({ State.reset with bsAnswers := [.fail] } : State).StoreFails 0#8 ∧
    ({ State.reset with store := ⟨[], 65535⟩ } : State).StoreFails 255#8 ∧
    ({ State.reset with store := ⟨[], 65535⟩, bsAnswers := [.deliver] } : State).StoreFails 255#8 ∧
    State.reset.Live ∧ ({ State.reset with bsAnswers := [.fail] } : State).Faults 0#8 ∧
    ({ State.reset with bsAnswers := [.silent, .deliver] } : State).StoreSilent :=
  ⟨.inl ⟨[], rfl⟩, .inr ⟨.inl rfl, by decide⟩, .inr ⟨.inr ⟨[], rfl⟩, by decide⟩, ⟨rfl, by decide, by decide⟩,
    reset_faults 0#8, ⟨[.deliver], rfl⟩⟩

/-- PmWriteFrameFillsOneFrame and PmReadByteReturnsTheByte: addresses outside a frame, and a byte that is there. -/
theorem witness_memory :
    (255 < (1#7).toNat * 256 ∨ (1#7).toNat * 256 + 256 ≤ 255) ∧ (512 < (1#7).toNat * 256 ∨ (1#7).toNat * 256 + 256 ≤ 512) ∧
    Memory.read [(32767, 0x80#8)] (0x7FFF#15).toNat = some 0x80#8 := by decide

/-- ByteReadsAsTwosComplement: both ranges at their ends. -/
theorem witness_ByteReadsAsTwosComplement :
    (0#8).toNat < 128 ∧ (127#8).toNat < 128 ∧ 128 ≤ (128#8).toNat ∧ 128 ≤ (255#8).toNat := by decide

/-- StRecordsAddOne and FullCounterFaults: a counter just below its last value, and at it. -/
theorem witness_counters :
    (0xFFFFFFFE#32 : Counter) ≠ 0xFFFFFFFF#32 ∧ State.reset.block.statAddresses ≠ 0xFFFFFFFF#32 ∧
    (withBlock { Block.reset with statTlbHits := 0xFFFFFFFF#32 }).block.statTlbHits = 0xFFFFFFFF#32 := by decide

/-- ClockOverflowTakesTheFatalPath, XlateWhileHaltedChangesNothing. -/
theorem witness_fatal_states :
    (withBlock { Block.reset with clock := 0xFFFFFFFF#32 }).block.status.halted = false ∧
    (withBlock { Block.reset with clock := 0xFFFFFFFF#32 }).block.clock = 0xFFFFFFFF#32 ∧
    (withBlock { Block.reset with status := ⟨true, .bsReadFailure⟩ }).block.status.halted = true := ⟨rfl, rfl, rfl⟩

/-- A halted state that takes an XLATE. -/
def haltedState : State :=
  { withBlock { Block.reset with status := ⟨true, .bsReadFailure⟩ } with inputs := [.command 0x100000000#34] }

/-- OnlyResetLeavesTheHalt and CountersNeverDecrease. -/
theorem witness_OnlyResetLeavesTheHalt :
    (∃ t, step haltedState = .next t ∧ (t.block.status.halted = true)) ∧ haltedState.block.status.halted = true ∧
    ¬ haltedState.TakesReset :=
  ⟨⟨_, rfl, rfl⟩, rfl, fun ⟨_, _, h⟩ => by cases h⟩

/-- CountersNeverDecrease and PagesNeverMove on a step that does not halt, from a state of a run with a page mapped. -/
theorem witness_live_step :
    ({ onePage with inputs := [.command 0x100000100#34] } : State).Inv ∧
    ¬ ({ onePage with inputs := [.command 0x100000100#34] } : State).TakesReset ∧
    (∃ t, step { onePage with inputs := [.command 0x100000100#34] } = .next t ∧
      (t.block.status.err != .bsReadFailure) = true) ∧ onePage.block.ptEntry 0#8 = some 0#7 :=
  ⟨⟨witness_inv_onePage.pmWf, rfl, fun i h => (by cases h), fun _ => rfl, witness_inv_onePage.statusCoded,
    witness_inv_onePage.good⟩, fun ⟨_, _, h⟩ => (by cases h), exists_of_answers (by decide +kernel), by decide +kernel⟩

/-- StepKeepsTheInvariant, StepAlwaysAnswers, StepKeepsMemoryCanonical, StoreIsReadOnly, NoStepIssuesAMicroOperation: a state
that has the invariant, in whose memory bytes are listed, and a step from it. -/
theorem witness_invariant_step :
    onePage.Inv ∧ onePage.block.PmWf ∧ onePage.block.pm ≠ [] ∧ step onePage = .next onePage :=
  ⟨witness_inv_onePage, witness_inv_onePage.pmWf, by decide +kernel, rfl⟩

/-- A block that CTR_OVERFLOW has halted, with a page resident. -/
def overflowed : State := onePage.halt .ctrOverflow

/-- StepKeepsTheInvariant after a CTR_OVERFLOW halt, where the promises still hold. -/
theorem witness_inv_overflowed : overflowed.Inv where
  pmWf := witness_inv_onePage.pmWf
  noUop := rfl
  waitsXlate i h := by cases h
  waitsLive _ := rfl
  statusCoded := ⟨(fun h => nomatch h), (fun h => nomatch h)⟩
  good _ := Block.good_withStatus (witness_inv_onePage.good_of_live (by decide +kernel)) _

/-- OccupiedFramesCountMappedPages, RatesAreBetweenZeroAndHundred: not halted, and halted by CTR_OVERFLOW. -/
theorem witness_counts :
    onePage.Inv ∧ onePage.block.status.err ≠ .bsReadFailure ∧ onePage.block.statAddresses ≠ 0#32 ∧
    overflowed.Inv ∧ overflowed.block.status.halted = true ∧ overflowed.block.status.err ≠ .bsReadFailure ∧
    overflowed.block.statAddresses ≠ 0#32 :=
  ⟨witness_inv_onePage, by decide +kernel, by decide +kernel, witness_inv_overflowed, rfl, by decide, by decide +kernel⟩

/-- ResetInputResetsFromAnyState: halted, and with a command in progress. -/
theorem witness_ResetInputResetsFromAnyState :
    ∃ s t : State, s.uopIssue = none ∧ s.inputs = [.rst] ∧ s.block.status.halted = true ∧
      t.uopIssue = none ∧ t.inputs = [.rst] ∧ t.waiting = some (.xlate 0#32) :=
  ⟨{ haltedState with inputs := [.rst] }, { State.reset with inputs := [.rst], waiting := some (.xlate 0#32) },
    rfl, rfl, rfl, rfl, rfl, rfl⟩

/-- StepRunsTheDecodedInstruction: each of its four clauses. -/
theorem witness_StepRunsTheDecodedInstruction :
    (∃ s : State, s.uopIssue = none ∧ s.waiting = none ∧ s.inputs = [.command 0x200000003#34] ∧
      decode (.command 0x200000003#34) = .ok (.rdcsr 3#32)) ∧
    (∃ s : State, s.uopIssue = some (lines 4#4) ∧ decode (.uop (lines 4#4)) = .ok (.ptLookup 0xA5#8)) ∧
    (∃ s : State, s.uopIssue = none ∧ s.waiting = some (.xlate 0#32) ∧ ∀ rest, s.inputs ≠ .rst :: rest) ∧
    (State.reset.uopIssue = none ∧ State.reset.waiting = none ∧ State.reset.inputs = []) :=
  ⟨⟨{ State.reset with inputs := [.command 0x200000003#34] }, rfl, rfl, rfl, by decide⟩,
    ⟨{ State.reset with uopIssue := some (lines 4#4) }, rfl, rfl⟩,
    ⟨{ State.reset with waiting := some (.xlate 0#32) }, rfl, rfl, nofun⟩, ⟨rfl, rfl, rfl⟩⟩

/-- OneResponsePerCommand: a command that is answered, and one that stays in progress. -/
theorem witness_OneResponsePerCommand :
    (∃ t, exec (.rdcsr 0#32) State.reset = .next t ∧ (t.responses.length == 1) = true) ∧
    (∃ t, exec (.xlate 0#32) { State.reset with bsAnswers := [.silent] } = .next t ∧ t.waiting.isSome = true) ∧
    (Instr.xlate 0#32).isCommand = true ∧ State.reset.waiting = none :=
  ⟨exists_of_answers (by decide +kernel), exists_of_answers (by decide +kernel), rfl, rfl⟩

/-- OnlyXlateAdvancesTheClock and OnlyTheseChangeEachArray: an instruction that is none of those named. -/
theorem witness_OnlyTheseChangeEachArray :
    (∃ t, exec (.ptLookup 0#8) State.reset = .next t) ∧ (∀ arg, Instr.ptLookup 0#8 ≠ .xlate arg) ∧
    (∀ p, Instr.ptLookup 0#8 ≠ .faAllocate p) ∧ (∀ p f c, Instr.ptLookup 0#8 ≠ .tlbInsert p f c) ∧
    (∀ p f, Instr.ptLookup 0#8 ≠ .ptMap p f) ∧ (∀ f p, Instr.ptLookup 0#8 ≠ .faOccupy f p) ∧
    (∀ f d, Instr.ptLookup 0#8 ≠ .pmWriteFrame f d) ∧ Instr.ptLookup 0#8 ≠ .stRecordAccess :=
  ⟨⟨_, rfl⟩, nofun, nofun, nofun, nofun, nofun, nofun, nofun⟩

/-- AddressFileStopsAtABadToken: good tokens at both ends of the range, and a bad one just above it. -/
theorem witness_AddressFileStopsAtABadToken :
    [['2', '1', '4', '7', '4', '8', '3', '6', '4', '7'], ['-', '2', '1', '4', '7', '4', '8', '3', '6', '4', '8']].map
      readToken = [2147483647, -2147483648].map some ∧
    readToken ['2', '1', '4', '7', '4', '8', '3', '6', '4', '8'] = none ∧ readToken ['7', 'x'] = none := by
  decide +kernel

end Sys2Proof.Tests
end

/-! The state's own laws (10_state.md): what an instruction other than XLATE can change, the ways an XLATE can end, and the
invariant through every step; the obligations of that file are settled from them. -/

namespace Sys2Proof.Machine

/-! ### Instructions other than XLATE -/

/-- TLB.LOOKUP changes no element of the block but the TLB (41_tlb.md R141). -/
theorem lookupTlb_changes_tlb (p : Page) (b : Block) : ∃ v, (lookupTlb p b).2 = { b with tlb := v } := by
  rcases lookupTlb_cases p b with ⟨-, h⟩ | ⟨j, e, -, -, -, h⟩
  · exact ⟨b.tlb, by rw [h]⟩
  · exact ⟨(b.setSlot j (some { e with stamp := b.clock })).tlb, by rw [h]; rfl⟩

/-- The block after an instruction other than XLATE: as it was, or with the effect of the one micro-operation run. -/
inductive OpChange (b : Block) : Instr → Block → Prop
  | nothing (i : Instr) : OpChange b i b
  | tlbLookup (p : Page) : OpChange b (.tlbLookup p) (lookupTlb p b).2
  | tlbInsert (p : Page) (f : Frame) (c : Counter) : OpChange b (.tlbInsert p f c) (insertTlb p f c b)
  | tlbInvalidate (p : Page) : OpChange b (.tlbInvalidate p) (invalidateTlb p b)
  | ptMap (p : Page) (f : Frame) : OpChange b (.ptMap p f) (mapPt p f b)
  | ptUnmap (p : Page) : OpChange b (.ptUnmap p) (unmapPt p b)
  | faAllocate (p : Page) : OpChange b (.faAllocate p) (allocateFrame p b).2
  | faOccupy (f : Frame) (p : Page) : OpChange b (.faOccupy f p) (occupyFrame f p b)
  | pmWriteFrame (f : Frame) (d : PageBytes) : OpChange b (.pmWriteFrame f d) (writeFrame f d b)
  | stRecordAccess (h : b.statAddresses ≠ Config.ctrMax) :
      OpChange b .stRecordAccess { b with statAddresses := b.statAddresses + 1#32 }
  | stRecordTlbHit (h : b.statTlbHits ≠ Config.ctrMax) :
      OpChange b .stRecordTlbHit { b with statTlbHits := b.statTlbHits + 1#32 }
  | stRecordPageFault (h : b.statPageFaults ≠ Config.ctrMax) :
      OpChange b .stRecordPageFault { b with statPageFaults := b.statPageFaults + 1#32 }

/-- A record operation that answers has updated its counter and given no result. -/
theorem counted_eq_next {r : Option Block} {s t : State} (h : counted r s = .next t) :
    ∃ b, r = some b ∧ t = { s with block := b, uopResult := .none } := by
  cases r with
  | none => cases h
  | some b => exact ⟨b, rfl, (Host.Outcome.next.inj h).symm⟩

/-- RDCSR changes nothing and answers a register or ERR_ILLEGAL (45_stats_and_csr.md R205, 30_encoding.md R98). -/
theorem execRdcsr_eq_next {arg : Arg} {s t : State} (h : execRdcsr arg s = .next t) :
    ∃ r, t = respond r s ∧ (r = .errIllegal ∨ ∃ d, r = .csr d) := by
  unfold execRdcsr at h
  split at h <;> cases h
  · exact ⟨_, rfl, .inr ⟨_, rfl⟩⟩
  · exact ⟨_, rfl, .inl rfl⟩

/-- BS.READ_PAGE changes neither the block nor the responses, whichever way its read ends. -/
theorem execBsReadPage_eq_next {p : Page} {s t : State} (h : execBsReadPage p s = .next t) :
    t.block = s.block ∧ t.responses = s.responses := by
  unfold execBsReadPage at h
  rcases readPage_cases p s with ⟨rest, -, hr⟩ | ⟨rest, -, hr⟩ | ⟨rest, -, -, hr⟩
  all_goals
    rw [hr] at h
    cases h
    exact ⟨rfl, rfl⟩

/-- What an instruction other than XLATE does to the block, and that it is not answered as a translation. -/
theorem exec_of_not_xlate {s t : State} {i : Instr} (hx : exec i s = .next t) (hn : ∀ arg, i ≠ .xlate arg) :
    OpChange s.block i t.block ∧ ∀ k v pa, t.responses ≠ .translated k v pa :: s.responses := by
  have silent : ∀ {u : State}, u.responses = s.responses → ∀ k v pa, u.responses ≠ .translated k v pa :: s.responses :=
    fun h k v pa h' => List.cons_ne_self _ _ (h'.symm.trans h)
  cases i with
  | xlate arg => exact absurd rfl (hn arg)
  | rdcsr arg =>
    obtain ⟨r, rfl, rfl | ⟨d, rfl⟩⟩ := execRdcsr_eq_next hx
    · exact ⟨.nothing _, fun k v pa h => by cases h⟩
    · exact ⟨.nothing _, fun k v pa h => by cases h⟩
  | tlbLookup p => cases hx; exact ⟨.tlbLookup p, silent rfl⟩
  | tlbInsert p f c => cases hx; exact ⟨.tlbInsert p f c, silent rfl⟩
  | tlbInvalidate p => cases hx; exact ⟨.tlbInvalidate p, silent rfl⟩
  | ptLookup p => cases hx; exact ⟨.nothing _, silent rfl⟩
  | ptMap p f => cases hx; exact ⟨.ptMap p f, silent rfl⟩
  | ptUnmap p => cases hx; exact ⟨.ptUnmap p, silent rfl⟩
  | faAllocate p => cases hx; exact ⟨.faAllocate p, silent rfl⟩
  | faOccupy f p => cases hx; exact ⟨.faOccupy f p, silent rfl⟩
  | bsReadPage p =>
    obtain ⟨hb, hr⟩ := execBsReadPage_eq_next hx
    rw [hb]
    exact ⟨.nothing _, silent hr⟩
  | pmWriteFrame f d => cases hx; exact ⟨.pmWriteFrame f d, silent rfl⟩
  | pmReadByte pa => cases hx; exact ⟨.nothing _, silent rfl⟩
  | stRecordAccess =>
    obtain ⟨b, hb, rfl⟩ := counted_eq_next hx
    obtain ⟨h, rfl⟩ := recordAccess_eq_some hb
    exact ⟨.stRecordAccess h, silent rfl⟩
  | stRecordTlbHit =>
    obtain ⟨b, hb, rfl⟩ := counted_eq_next hx
    obtain ⟨h, rfl⟩ := recordTlbHit_eq_some hb
    exact ⟨.stRecordTlbHit h, silent rfl⟩
  | stRecordPageFault =>
    obtain ⟨b, hb, rfl⟩ := counted_eq_next hx
    obtain ⟨h, rfl⟩ := recordPageFault_eq_some hb
    exact ⟨.stRecordPageFault h, silent rfl⟩

theorem OpChange.clock_eq {b c : Block} {i : Instr} (h : OpChange b i c) : c.clock = b.clock := by
  cases h with
  | tlbLookup p =>
    obtain ⟨v, hv⟩ := lookupTlb_changes_tlb p b
    rw [hv]
  | faAllocate p => exact (allocateFrame_frame p b).1
  | _ => rfl

/-- Which instruction can change which element (10_state.md R47). -/
theorem OpChange.keeps {b c : Block} {i : Instr} (h : OpChange b i c) :
    c.status = b.status ∧ c.clock = b.clock ∧
    ((∀ p, i ≠ .tlbLookup p) → (∀ p f c, i ≠ .tlbInsert p f c) → (∀ p, i ≠ .tlbInvalidate p) →
      (∀ p, i ≠ .faAllocate p) → ∀ j, c.slot j = b.slot j) ∧
    ((∀ p f, i ≠ .ptMap p f) → (∀ p, i ≠ .ptUnmap p) → (∀ p, i ≠ .faAllocate p) →
      ∀ q, c.ptEntry q = b.ptEntry q) ∧
    ((∀ f p, i ≠ .faOccupy f p) → (∀ p, i ≠ .faAllocate p) → ∀ g, c.occEntry g = b.occEntry g) ∧
    ((∀ f d, i ≠ .pmWriteFrame f d) → ∀ a, Memory.read c.pm a = Memory.read b.pm a) ∧
    ((∀ p, i ≠ .faAllocate p) → c.fifoCursor = b.fifoCursor) ∧
    (i ≠ .stRecordAccess → c.statAddresses = b.statAddresses) ∧
    (i ≠ .stRecordTlbHit → c.statTlbHits = b.statTlbHits) ∧
    (i ≠ .stRecordPageFault → c.statPageFaults = b.statPageFaults) := by
  cases h with
  | nothing i => simp
  | tlbLookup p =>
    obtain ⟨v, hv⟩ := lookupTlb_changes_tlb p b
    rw [hv]
    simp [Block.ptEntry, Block.occEntry]
  | tlbInsert p f c => simp
  | tlbInvalidate p => simp
  | ptMap p f => simp
  | ptUnmap p => simp
  | faAllocate p =>
    obtain ⟨hclock, hpm, ha, hh, hf, hs⟩ := allocateFrame_frame p b
    simp [hclock, hpm, ha, hh, hf, hs]
  | faOccupy f p => simp
  | pmWriteFrame f d => simp
  | stRecordAccess h => simp [Block.slot, Block.ptEntry, Block.occEntry]
  | stRecordTlbHit h => simp [Block.slot, Block.ptEntry, Block.occEntry]
  | stRecordPageFault h => simp [Block.slot, Block.ptEntry, Block.occEntry]

/-- Settles O51: of everything but XLATE, by the one change each instruction makes. -/
theorem onlyTheseChangeEachArray : Obligations.OnlyTheseChangeEachArray := by
  intro s t i hx hn
  exact (exec_of_not_xlate hx hn).1.keeps

/-! ### The ways an XLATE can end -/

/-- How steps 3 to 6 of an XLATE of page `p` that is answered OK end: the kind, the frame, and the state before step 7
(40_translate.md R123 to R126). -/
inductive State.Translates (s : State) (p : Page) : Kind → Frame → State → Prop
  | tlbHit {j : Fin 16} {e : TlbEntry} (room : s.block.statTlbHits ≠ Config.ctrMax) (hit : s.block.TlbHits p j e) :
      s.Translates p .tlbHit e.frame (s.withBlock (s.block.started.afterHit j e))
  | tableHit {f : Frame} (miss : s.block.TlbMisses p) (mapped : s.block.ptEntry p = some f) :
      s.Translates p .tableHit f (s.withBlock (insertTlb p f s.block.started.clock s.block.started))
  | pageFault (faults : s.Faults p) (delivers : s.StoreDelivers p) :
      s.Translates p .pageFault (s.block.started.afterAllocate p).1
        (({ s with bsAnswers := s.bsAnswers.tail }).withBlock (s.block.started.afterFault p (s.store.page p)))

/-- The ways an XLATE that answers a next state can end: `execXlate_cases` with the three answers OK put together. -/
inductive XlateEnds (arg : Arg) (s : State) : State → Prop
  | whileHalted (halted : s.block.status.halted = true) : XlateEnds arg s (respond .errFatal s)
  | clockFull (running : s.block.status.halted = false) (full : s.block.clock = Config.ctrMax) :
      XlateEnds arg s (raiseFatal .ctrOverflow s)
  | answered {k : Kind} {f : Frame} {u : State} (live : s.Live) (translates : s.Translates (arg.extractLsb' 8 8) k f u) :
      XlateEnds arg s (finishAccess k f (arg.extractLsb' 0 8) u)
  | readFailed (live : s.Live) (faults : s.Faults (arg.extractLsb' 8 8)) (fails : s.StoreFails (arg.extractLsb' 8 8)) :
      XlateEnds arg s (raiseFatal .bsReadFailure (({ s with bsAnswers := s.bsAnswers.tail }).withBlock
        (s.block.started.afterAllocate (arg.extractLsb' 8 8)).2))
  | waits (live : s.Live) (faults : s.Faults (arg.extractLsb' 8 8)) (silent : s.StoreSilent) :
      XlateEnds arg s { s with
        waiting := some (.xlate ((logicalAddress arg).setWidth 32)), bsAnswers := s.bsAnswers.tail }

/-- A read of a page that the store holds whole, with the choice to deliver it or none left. -/
theorem storeDelivers_of_holds {s : State} {p : Page} {rest : List StoreAnswer}
    (ha : s.bsAnswers = .deliver :: rest ∨ s.bsAnswers = [] ∧ rest = []) (hh : s.store.holds p = true) :
    s.StoreDelivers p ∧ rest = s.bsAnswers.tail := by
  have hsize : p.toNat * 256 + 256 ≤ s.store.size := of_decide_eq_true hh
  rcases ha with ha | ⟨ha, rfl⟩
  · exact ⟨⟨.inr ⟨rest, ha⟩, hsize⟩, by rw [ha, List.tail_cons]⟩
  · exact ⟨⟨.inl ha, hsize⟩, by rw [ha, List.tail_nil]⟩

/-- A read that the environment fails, or of a page that the store does not hold whole. -/
theorem storeFails_of_not_holds {s : State} {p : Page} {rest : List StoreAnswer}
    (ha : s.bsAnswers = .fail :: rest ∨ s.store.holds p = false ∧ s.bsAnswers = .deliver :: rest ∨
      s.store.holds p = false ∧ s.bsAnswers = [] ∧ rest = []) :
    s.StoreFails p ∧ rest = s.bsAnswers.tail := by
  have hsize : s.store.holds p = false → s.store.size < p.toNat * 256 + 256 :=
    fun h => Nat.lt_of_not_le (of_decide_eq_false h)
  rcases ha with ha | ⟨hh, ha⟩ | ⟨hh, ha, rfl⟩
  · exact ⟨.inl ⟨rest, ha⟩, by rw [ha, List.tail_cons]⟩
  · exact ⟨.inr ⟨.inr ⟨rest, ha⟩, hsize hh⟩, by rw [ha, List.tail_cons]⟩
  · exact ⟨.inr ⟨.inl ha, hsize hh⟩, by rw [ha, List.tail_nil]⟩

theorem execXlate_ends {arg : Arg} {s t : State} (hx : exec (.xlate arg) s = .next t) : XlateEnds arg s t := by
  have hcases := execXlate_cases arg s
  rw [pageOf_logicalAddress, offsetOf_logicalAddress, show execXlate arg s = .next t from hx] at hcases
  rcases hcases with ⟨hh, h⟩ | ⟨hh, hc, h⟩ | ⟨-, -, -, h⟩ |
    ⟨hh, hc, ha, ⟨j, e, ht, hit, h⟩ | ⟨f, hm, hp, h⟩ | ⟨hm, hp, hf, hread⟩⟩
  · cases h; exact .whileHalted hh
  · cases h; exact .clockFull hh hc
  · cases h
  · cases h; exact .answered ⟨hh, hc, ha⟩ (.tlbHit ht hit)
  · cases h; exact .answered ⟨hh, hc, ha⟩ (.tableHit hm hp)
  · rcases hread with ⟨rest, hr, hst, h⟩ | ⟨rest, hr, h⟩ | ⟨rest, hr, h⟩
    · obtain ⟨hd, rfl⟩ := storeDelivers_of_holds hr hst
      cases h; exact .answered ⟨hh, hc, ha⟩ (.pageFault ⟨hm, hp, hf⟩ hd)
    · obtain ⟨hfail, rfl⟩ := storeFails_of_not_holds hr
      cases h; exact .readFailed ⟨hh, hc, ha⟩ ⟨hm, hp, hf⟩ hfail
    · obtain rfl : rest = s.bsAnswers.tail := by rw [hr, List.tail_cons]
      cases h; exact .waits ⟨hh, hc, ha⟩ ⟨hm, hp, hf⟩ ⟨_, hr⟩

/-- An XLATE with an OK response ended in one of the three translations, and the response is of that kind, frame and byte. -/
theorem execXlate_answered {arg : Arg} {s t : State} {k : Kind} {v : Byte} {pa : PAddr}
    (hx : exec (.xlate arg) s = .next t) (hr : t.responses = .translated k v pa :: s.responses) :
    s.Live ∧ ∃ f u, s.Translates (arg.extractLsb' 8 8) k f u ∧ t = finishAccess k f (arg.extractLsb' 0 8) u ∧
      pa = physicalAddress f (arg.extractLsb' 0 8) ∧ v = readByte pa u := by
  cases execXlate_ends hx with
  | whileHalted => cases hr
  | clockFull => cases hr
  | answered live translates =>
    rw [finishAccess, respond_responses] at hr
    obtain ⟨⟨rfl, rfl, rfl⟩, -⟩ := by simpa using hr
    exact ⟨live, _, _, translates, rfl, rfl, rfl⟩
  | readFailed => simp at hr
  | waits => exact absurd hr.symm (List.cons_ne_self _ _)

/-! ### What a translation leaves -/

@[simp] theorem finishAccess_block (k : Kind) (f : Frame) (o : Offset) (s : State) : (finishAccess k f o s).block = s.block := rfl

theorem Block.afterAllocate_frame (b : Block) (p : Page) :
    (b.afterAllocate p).2.clock = b.clock ∧ (b.afterAllocate p).2.pm = b.pm ∧
    (b.afterAllocate p).2.statAddresses = b.statAddresses ∧ (b.afterAllocate p).2.statTlbHits = b.statTlbHits ∧
    (b.afterAllocate p).2.statPageFaults = b.statPageFaults + 1#32 ∧ (b.afterAllocate p).2.status = b.status :=
  allocateFrame_frame p _

/-- Step 1 is the only one that moves the clock and STAT_ADDRESSES (10_state.md R24). -/
theorem State.Translates.started {s u : State} {p : Page} {k : Kind} {f : Frame} (h : s.Translates p k f u) :
    u.block.clock = s.block.clock + 1#32 ∧ u.block.statAddresses = s.block.statAddresses + 1#32 ∧
    u.block.status = s.block.status := by
  cases h with
  | tlbHit => exact ⟨rfl, rfl, rfl⟩
  | tableHit => exact ⟨rfl, rfl, rfl⟩
  | pageFault =>
    obtain ⟨hclock, -, ha, -, -, hs⟩ := s.block.started.afterAllocate_frame p
    exact ⟨hclock, ha, hs⟩

/-- Settles O47: the clock moves in step 1 of an XLATE alone, and no other instruction is answered as a translation. -/
theorem onlyXlateAdvancesTheClock : Obligations.OnlyXlateAdvancesTheClock := by
  intro s t i hx
  refine ⟨fun hn => (exec_of_not_xlate hx hn).1.clock_eq, fun k v pa hr => ?_⟩
  cases i with
  | xlate arg =>
    obtain ⟨⟨-, hclock, hadd⟩, f, u, ht, rfl, -⟩ := execXlate_answered hx hr
    obtain ⟨h1, h2, -⟩ := ht.started
    rw [finishAccess_block, h1, h2]
    exact ⟨add_one_toNat hclock, add_one_toNat hadd⟩
  | _ => exact absurd hr ((exec_of_not_xlate hx nofun).2 k v pa)

/-! ### The counters -/

/-- The clock and the counters of `c` are at least those of `b` (45_stats_and_csr.md R206). -/
def Block.CountersLe (b c : Block) : Prop :=
  b.clock ≤ c.clock ∧ b.statAddresses ≤ c.statAddresses ∧
  b.statTlbHits ≤ c.statTlbHits ∧ b.statPageFaults ≤ c.statPageFaults

theorem counter_le_add_one {c : Counter} (h : c ≠ Config.ctrMax) : c ≤ c + 1#32 := by
  rw [BitVec.le_def, add_one_toNat h]
  exact Nat.le_succ _

theorem Block.CountersLe.refl (b : Block) : b.CountersLe b := by
  simp [Block.CountersLe]

theorem OpChange.countersLe {b c : Block} {i : Instr} (h : OpChange b i c) : b.CountersLe c := by
  cases h with
  | tlbLookup p =>
    obtain ⟨v, hv⟩ := lookupTlb_changes_tlb p b
    rw [hv]
    exact .refl b
  | faAllocate p =>
    obtain ⟨hclock, -, ha, hh, hf, -⟩ := allocateFrame_frame p b
    simp [Block.CountersLe, hclock, ha, hh, hf]
  | stRecordAccess h => simp [Block.CountersLe, counter_le_add_one h]
  | stRecordTlbHit h => simp [Block.CountersLe, counter_le_add_one h]
  | stRecordPageFault h => simp [Block.CountersLe, counter_le_add_one h]
  | _ => exact .refl b

theorem State.Translates.countersLe {s u : State} {p : Page} {k : Kind} {f : Frame} (hl : s.Live)
    (h : s.Translates p k f u) : s.block.CountersLe u.block := by
  obtain ⟨-, hclock, hadd⟩ := hl
  obtain ⟨h1, h2, -⟩ := h.started
  refine ⟨h1 ▸ counter_le_add_one hclock, h2 ▸ counter_le_add_one hadd, ?_⟩
  cases h with
  | tlbHit room => exact ⟨counter_le_add_one room, BitVec.le_refl _⟩
  | tableHit => exact ⟨BitVec.le_refl _, BitVec.le_refl _⟩
  | pageFault faults =>
    obtain ⟨-, -, room⟩ := faults
    obtain ⟨-, -, -, hh, hf, -⟩ := s.block.started.afterAllocate_frame p
    exact ⟨hh ▸ BitVec.le_refl _, hf ▸ counter_le_add_one room⟩

/-- An XLATE lowers no counter, but where its page read fails. -/
theorem execXlate_countersLe {arg : Arg} {s t : State} (hx : exec (.xlate arg) s = .next t)
    (hf : t.block.status.err = .bsReadFailure → s.block.status.halted = true) : s.block.CountersLe t.block := by
  cases execXlate_ends hx with
  | whileHalted => exact .refl _
  | clockFull => exact .refl s.block
  | answered live translates =>
    rw [finishAccess_block]
    exact translates.countersLe live
  | readFailed live =>
    obtain ⟨running, -, -⟩ := live
    exact absurd (running.symm.trans (hf (by simp))) Bool.false_ne_true
  | waits => exact .refl s.block

theorem exec_countersLe {s t : State} {i : Instr} (hx : exec i s = .next t)
    (hf : t.block.status.err = .bsReadFailure → s.block.status.halted = true) : s.block.CountersLe t.block := by
  cases i with
  | xlate arg => exact execXlate_countersLe hx hf
  | _ => exact (exec_of_not_xlate hx nofun).1.countersLe

/-- Settles O48: by the kinds of step, an instruction's part being `exec_countersLe`. -/
theorem countersNeverDecrease : Obligations.CountersNeverDecrease := by
  intro s t hs hreset hf
  rcases step_cases hs with ⟨-, -, -, rfl⟩ | ⟨rest, hu, hi, -⟩ | ⟨i, u, hx, -, hfetch⟩ | ⟨w, rest, -, -, -, -, rfl⟩
  · exact Block.CountersLe.refl _
  · exact absurd ⟨hu, rest, hi⟩ hreset
  · have hub : u.block = s.block := by
      rcases hfetch with ⟨w, -, -, rfl⟩ | ⟨w, rest, -, -, -, -, rfl⟩ <;> rfl
    have := exec_countersLe hx (hub ▸ hf)
    rwa [hub] at this
  · exact Block.CountersLe.refl _

/-! ### A translation in a state of a run -/

theorem State.Inv.good_of_running {s : State} (hi : s.Inv) (hl : s.Live) : s.block.Good s.store :=
  hi.good_of_live hl.1

/-- Step 1 of an XLATE in a state of a run. -/
theorem State.Inv.mid_started {s : State} (hi : s.Inv) (hl : s.Live) : Block.Mid s.store s.block.started :=
  Block.mid_started (hi.good_of_running hl) hl.2.1

/-- A page fault in a state of a run allocates as `Block.Allocated` says. -/
theorem State.Inv.allocated {s : State} (hi : s.Inv) (hl : s.Live) {p : Page} (hf : s.Faults p) :
    Block.Allocated s.store s.block.started (s.block.started.afterAllocate p).2 (s.block.started.afterAllocate p).1 p := by
  obtain ⟨miss, unmapped, room⟩ := hf
  exact Block.allocated_afterAllocate (hi.mid_started hl) miss unmapped room

/-- Settles O29: the allocation of a page fault takes the frame that the faults before it name (`Block.Allocated.frn`). -/
theorem faultsTakeFramesInFifoOrder : Obligations.FaultsTakeFramesInFifoOrder := by
  intro s t arg v pa hi hx hr
  obtain ⟨hl, f, u, ht, -, rfl, -⟩ := execXlate_answered hx hr
  have hframe : (physicalAddress f (arg.extractLsb' 0 8)).extractLsb' 8 7 = f := frameOf_physicalAddress f _
  rw [hframe]
  cases ht with
  | pageFault faults => exact (hi.allocated hl faults).frn

/-- Settles O17: a page in the TLB is mapped (R37), so only the third kind finds its page unmapped. -/
theorem faultExactlyWhenUnmapped : Obligations.FaultExactlyWhenUnmapped := by
  intro s t arg k v pa hi hx hr
  obtain ⟨hl, f, u, ht, -⟩ := execXlate_answered hx hr
  cases ht with
  | @tlbHit j e _ hit =>
    obtain ⟨hj, hpage, -⟩ := hit
    have hmapped := (hi.good_of_running hl).tlbSubset j e hj
    rw [hpage] at hmapped
    simp [hmapped]
  | tableHit _ mapped => simp [mapped]
  | pageFault faults =>
    obtain ⟨-, unmapped, -⟩ := faults
    simp [unmapped]

/-! ### R39: the counts -/

theorem Block.mem_occupied {b : Block} {i : Fin 128} :
    i ∈ Finset.univ.filter (fun i => b.occupied (BitVec.ofFin i) = true) ↔ ∃ p, b.occEntry (BitVec.ofFin i) = some p := by
  rw [Finset.mem_filter_univ, Block.occupied, Option.isSome_iff_exists]

theorem Block.mem_mapped {b : Block} {i : Fin 256} :
    i ∈ Finset.univ.filter (fun i => b.mapped (BitVec.ofFin i) = true) ↔ ∃ f, b.ptEntry (BitVec.ofFin i) = some f := by
  rw [Finset.mem_filter_univ, Block.mapped, Option.isSome_iff_exists]

/-- Where occupancy is the inverse of the page table, the two arrays pair the occupied frames with the mapped pages
(10_state.md R36). -/
theorem Block.occupiedCount_eq_mappedCount {b : Block} (hocc : b.OccInverse) : b.occupiedCount = b.mappedCount := by
  refine Finset.card_nbij' (fun f => ((b.occEntry (BitVec.ofFin f)).getD 0#8).toFin)
    (fun p => ((b.ptEntry (BitVec.ofFin p)).getD 0#7).toFin) ?_ ?_ ?_ ?_
  · intro f hf
    obtain ⟨p, hp⟩ := Block.mem_occupied.mp hf
    exact Block.mem_mapped.mpr ⟨BitVec.ofFin f, by simpa [hp] using (hocc _ p).mp hp⟩
  · intro p hp
    obtain ⟨f, hf⟩ := Block.mem_mapped.mp hp
    exact Block.mem_occupied.mpr ⟨BitVec.ofFin p, by simpa [hf] using (hocc f _).mpr hf⟩
  · intro f hf
    obtain ⟨p, hp⟩ := Block.mem_occupied.mp hf
    simp [hp, (hocc _ p).mp hp]
  · intro p hp
    obtain ⟨f, hf⟩ := Block.mem_mapped.mp hp
    simp [hf, (hocc f _).mpr hf]

/-- Settles O56: R36 pairs the frames with the pages; the bounds are the sizes of the arrays. -/
theorem occupiedFramesCountMappedPages : Obligations.OccupiedFramesCountMappedPages := by
  intro s hi hf
  have hg := hi.good hf
  exact ⟨Block.occupiedCount_eq_mappedCount hg.occInverse,
    (Finset.card_le_univ _).trans_eq (Fintype.card_fin 128), (Finset.card_le_univ _).trans_eq (Fintype.card_fin 16)⟩

/-! ### The invariant through a step -/

/-- The promises at reset. -/
theorem Block.reset_good (st : Store) : Block.reset.Good st where
  ptInjective p q f h := by simp at h
  occInverse f p := by simp
  tlbSubset i e h := by simp at h
  tlbUnique i j d e h := by simp at h
  occPrefix f := by simp [Block.occupied, show Block.reset.statPageFaults = 0#32 from rfl]
  stampsOrdered := ⟨fun i e h => by simp at h, fun i j d e h => by simp at h⟩
  clockCounts := rfl
  countersBounded := Nat.le_refl 0
  mirrors f p i h := by simp at h
  cursorCounts := rfl

theorem applyReset_inv {s : State} : (applyReset s).Inv where
  pmWf := ⟨rfl, rfl⟩
  noUop := rfl
  waitsXlate _ h := by cases h
  waitsLive _ := rfl
  statusCoded := ⟨fun _ => rfl, fun _ => rfl⟩
  good _ := Block.reset_good s.store

/-- A state with `status` and the instruction in progress unchanged keeps the invariant where its block keeps its promises. -/
theorem State.Inv.of_good {s t : State} (h : s.Inv) (hu : t.uopIssue = s.uopIssue) (hw : t.waiting = s.waiting)
    (hs : t.block.status = s.block.status) (hpm : t.block.PmWf)
    (hg : s.block.status.err ≠ .bsReadFailure → t.block.Good t.store) : t.Inv where
  pmWf := hpm
  noUop := hu.trans h.noUop
  waitsXlate := hw ▸ h.waitsXlate
  waitsLive := by
    rw [hw, Block.halted, hs]
    exact h.waitsLive
  statusCoded := by
    rw [Block.halted, hs]
    exact h.statusCoded
  good := hs ▸ hg

/-- The inputs, the responses and the environment's choices are no part of the invariant. -/
theorem State.Inv.of_same_block {s t : State} (h : s.Inv) (hu : t.uopIssue = s.uopIssue) (hw : t.waiting = s.waiting)
    (hb : t.block = s.block) (hst : t.store = s.store) : t.Inv :=
  h.of_good hu hw (by rw [hb]) (hb ▸ h.pmWf) (by rw [hb, hst]; exact h.good)

/-- The fatal path keeps the invariant: a failed page read ends what is promised of the block, and an overflow touches no
more than `status` (60_exceptions.md R221, R222). -/
theorem raiseFatal_inv {s : State} {c : Err} (hc : c ≠ .none) (hu : s.uopIssue = none) (hw : s.waiting = none)
    (hg : c ≠ .bsReadFailure → s.block.PmWf ∧ s.block.Good s.store) : (raiseFatal c s).Inv where
  pmWf := by
    cases c with
    | none => exact absurd rfl hc
    | bsReadFailure => exact ⟨rfl, rfl⟩
    | ctrOverflow => exact (hg (by decide)).1
  noUop := by simpa using hu
  waitsXlate i h := by simp [hw] at h
  waitsLive _ := by simpa using hw
  statusCoded := by simp [Block.halted, hc]
  good := by
    cases c with
    | none => exact absurd rfl hc
    | bsReadFailure => exact fun h => absurd rfl h
    | ctrOverflow => exact fun _ => Block.good_withStatus (hg (by decide)).2 _

/-- A translation changes the block, and of the rest the environment's choices alone. -/
theorem State.Translates.rest {s u : State} {p : Page} {k : Kind} {f : Frame} (h : s.Translates p k f u) :
    u.uopIssue = s.uopIssue ∧ u.waiting = s.waiting ∧ u.store = s.store := by
  cases h <;> exact ⟨rfl, rfl, rfl⟩

/-- Each of the three kinds restores the promises that step 1 broke. -/
theorem State.Translates.good {s u : State} {p : Page} {k : Kind} {f : Frame} (h : s.Translates p k f u)
    (hm : Block.Mid s.store s.block.started) : u.block.Good s.store := by
  cases h with
  | tlbHit room hit => exact Block.good_afterHit hm hit room
  | tableHit miss mapped => exact Block.good_insertTlb hm miss mapped
  | pageFault faults =>
    obtain ⟨miss, unmapped, room⟩ := faults
    exact Block.good_afterFault hm miss unmapped room

/-- A translation writes memory only by filling one frame, which keeps its canonical form (20_memory.md R62). -/
theorem State.Translates.pmWf {s u : State} {p : Page} {k : Kind} {f : Frame} (h : s.Translates p k f u)
    (hpm : s.block.PmWf) : u.block.PmWf := by
  cases h with
  | tlbHit => exact hpm
  | tableHit => exact hpm
  | pageFault =>
    obtain ⟨-, hsame, -⟩ := s.block.started.afterAllocate_frame p
    refine writeFrame_pmWf (b := (s.block.started.afterAllocate p).2) ?_
    rw [Block.PmWf, hsame]
    exact hpm

/-- An XLATE keeps the invariant; the step takes it with nothing in progress. -/
theorem execXlate_inv {arg : Arg} {s t : State} (hi : s.Inv) (hw : s.waiting = none) (hx : exec (.xlate arg) s = .next t) :
    t.Inv := by
  cases execXlate_ends hx with
  | whileHalted => exact hi.of_same_block rfl rfl rfl rfl
  | clockFull running => exact raiseFatal_inv (by decide) hi.noUop hw fun _ => ⟨hi.pmWf, hi.good_of_live running⟩
  | answered live translates =>
    obtain ⟨hu, hwait, hst⟩ := translates.rest
    obtain ⟨-, -, hstatus⟩ := translates.started
    exact hi.of_good hu hwait hstatus (translates.pmWf hi.pmWf) fun _ => hst ▸ translates.good (hi.mid_started live)
  | readFailed => exact raiseFatal_inv (by decide) hi.noUop hw fun h => absurd rfl h
  | waits live =>
    obtain ⟨running, -, -⟩ := live
    exact
      { hi with
        waitsXlate := fun _ h => ⟨_, (Option.some.inj h).symm⟩
        waitsLive := fun h => absurd (running.symm.trans h) Bool.false_ne_true }

/-- Settles O54: by the kinds of step; in a state of a run the instruction is a command, RDCSR changes nothing of the
invariant and an XLATE is `execXlate_inv`. -/
theorem stepKeepsTheInvariant : Obligations.StepKeepsTheInvariant := by
  intro s t hi hs
  rcases step_cases hs with ⟨-, -, -, rfl⟩ | ⟨rest, -, -, rfl⟩ | ⟨i, u, hx, -, hfetch⟩ | ⟨w, rest, -, -, -, -, rfl⟩
  · exact hi
  · exact applyReset_inv
  · rcases hfetch with ⟨w, hw, -⟩ | ⟨w, rest, -, hwait, -, hd, rfl⟩
    · exact absurd (hi.noUop.symm.trans hw) nofun
    · have hu : ({ s with inputs := rest } : State).Inv := hi.of_same_block rfl rfl rfl rfl
      rcases decode_command hd with ⟨a, rfl⟩ | ⟨a, rfl⟩
      · exact execXlate_inv hu hwait hx
      · obtain ⟨r, rfl, -⟩ := execRdcsr_eq_next hx
        exact hi.of_same_block rfl rfl rfl rfl
  · exact hi.of_same_block rfl rfl rfl rfl

end Sys2Proof.Machine

/-! The memory's laws (20_memory.md): the backing store through every step, and that the step answers in every state of a
run. -/

namespace Sys2Proof.Machine

/-! ### The backing store -/

/-- BS.READ_PAGE uses up the environment's choice and leaves the store (44_backing_store_and_physical_memory.md R186). -/
theorem execBsReadPage_store {p : Page} {s t : State} (h : execBsReadPage p s = .next t) : t.store = s.store := by
  unfold execBsReadPage at h
  rcases readPage_cases p s with ⟨rest, -, hr⟩ | ⟨rest, -, hr⟩ | ⟨rest, -, -, hr⟩
  all_goals
    rw [hr] at h
    cases h
    rfl

theorem counted_store {r : Option Block} {s t : State} (h : counted r s = .next t) : t.store = s.store := by
  obtain ⟨b, -, rfl⟩ := counted_eq_next h
  rfl

/-- However an XLATE ends, it has read the store and not changed it. -/
theorem XlateEnds.store_eq {arg : Arg} {s t : State} (h : XlateEnds arg s t) : t.store = s.store := by
  cases h with
  | answered _ translates =>
    obtain ⟨-, -, hstore⟩ := translates.rest
    exact hstore
  | _ => rfl

theorem exec_store {s t : State} {i : Instr} (hx : exec i s = .next t) : t.store = s.store := by
  cases i with
  | xlate arg => exact (execXlate_ends hx).store_eq
  | rdcsr arg =>
    obtain ⟨r, rfl, -⟩ := execRdcsr_eq_next hx
    rfl
  | bsReadPage p => exact execBsReadPage_store hx
  | stRecordAccess => exact counted_store hx
  | stRecordTlbHit => exact counted_store hx
  | stRecordPageFault => exact counted_store hx
  | _ => cases hx; rfl

/-- Settles O50: by the kinds of step, an instruction's part being `exec_store`. -/
theorem storeIsReadOnly : Obligations.StoreIsReadOnly := by
  intro s t hs
  rcases step_cases hs with ⟨-, -, -, rfl⟩ | ⟨rest, -, -, rfl⟩ | ⟨i, u, hx, -, hfetch⟩ | ⟨w, rest, -, -, -, -, rfl⟩
  · rfl
  · rfl
  · rw [exec_store hx]
    rcases hfetch with ⟨w, -, -, rfl⟩ | ⟨w, rest, -, -, -, -, rfl⟩ <;> rfl
  · rfl

/-! ### The step by what it finds -/

theorem step_of_no_input {s : State} (hu : s.uopIssue = none) (hi : s.inputs = []) : step s = .next s := by
  unfold step fetch
  rw [hu, hi]
  cases s.waiting <;> rfl

theorem step_of_rst {s : State} {rest : List HostInput} (hu : s.uopIssue = none) (hi : s.inputs = .rst :: rest) :
    step s = .next (applyReset { s with inputs := rest }) := by
  unfold step fetch
  rw [hu, hi]
  cases s.waiting <;> rfl

/-- A command word is taken when nothing is in progress. -/
theorem fetch_of_command {s : State} {w : CmdWord} {rest : List HostInput} (hu : s.uopIssue = none) (hw : s.waiting = none)
    (hi : s.inputs = .command w :: rest) : fetch s = .word (.command w) { s with inputs := rest } := by
  unfold fetch
  rw [hu, hw, hi]

theorem step_of_command {s : State} {w : CmdWord} {rest : List HostInput} {i : Instr} (hu : s.uopIssue = none)
    (hw : s.waiting = none) (hi : s.inputs = .command w :: rest) (hd : decode (.command w) = .ok i) :
    step s = exec i { s with inputs := rest } := by
  simp [step, fetch_of_command hu hw hi, hd]

/-- A command word that is no instruction is answered ERR_ILLEGAL (30_encoding.md R97). -/
theorem step_of_reserved {s : State} {w : CmdWord} {rest : List HostInput} {e : DecodeError} (hu : s.uopIssue = none)
    (hw : s.waiting = none) (hi : s.inputs = .command w :: rest) (hd : decode (.command w) = .error e) :
    step s = .next (respond .errIllegal { s with inputs := rest }) := by
  obtain ⟨op, rfl⟩ := decode_command_error hd
  simp [step, fetch_of_command hu hw hi, hd, rejected]

/-! ### No command of a run stops the block -/

/-- A running XLATE that does not answer has found a counter at its last value (93_implementation_defined.md U6). -/
theorem execXlate_answers_or_counter_full (arg : Arg) (s : State) :
    (∃ t, exec (.xlate arg) s = .next t) ∨
    (s.block.status.halted = false ∧ s.block.clock ≠ Config.ctrMax ∧
      (s.block.statAddresses = Config.ctrMax ∨ s.block.statTlbHits = Config.ctrMax ∨
        s.block.statPageFaults = Config.ctrMax)) := by
  rcases execXlate_cases arg s with ⟨-, h⟩ | ⟨-, -, h⟩ | ⟨running, hclock, hfull, -⟩ |
    ⟨-, -, -, ⟨_, _, -, -, h⟩ | ⟨_, -, -, h⟩ | ⟨-, -, -, hread⟩⟩
  · exact .inl ⟨_, h⟩
  · exact .inl ⟨_, h⟩
  · exact .inr ⟨running, hclock, hfull⟩
  · exact .inl ⟨_, h⟩
  · exact .inl ⟨_, h⟩
  · rcases hread with ⟨_, -, -, h⟩ | ⟨_, -, h⟩ | ⟨_, -, h⟩ <;> exact .inl ⟨_, h⟩

/-- The clock counts the addresses, which bound the hits and the faults (10_state.md R42, R43): while the clock has a next
value, so has each counter. -/
theorem Block.Good.counters_ne_max {st : Store} {b : Block} (g : b.Good st) (hc : b.clock ≠ Config.ctrMax) :
    b.statAddresses ≠ Config.ctrMax ∧ b.statTlbHits ≠ Config.ctrMax ∧ b.statPageFaults ≠ Config.ctrMax := by
  have hclock : b.clock = b.statAddresses := g.clockCounts
  have hbound : b.statTlbHits.toNat + b.statPageFaults.toNat ≤ b.statAddresses.toNat := g.countersBounded
  have hadd : b.statAddresses ≠ Config.ctrMax := hclock ▸ hc
  rw [Config.ctrMax] at hadd ⊢
  exact ⟨hadd, by bv_omega, by bv_omega⟩

/-- In a state of a run the clock check of an XLATE leaves every counter it may add to a next value. -/
theorem State.Inv.execXlate_answers {s : State} (hi : s.Inv) (arg : Arg) : ∃ t, exec (.xlate arg) s = .next t := by
  rcases execXlate_answers_or_counter_full arg s with h | ⟨running, hclock, hfull⟩
  · exact h
  · obtain ⟨hadd, hhits, hfaults⟩ := (hi.good_of_live running).counters_ne_max hclock
    rcases hfull with h | h | h
    · exact absurd h hadd
    · exact absurd h hhits
    · exact absurd h hfaults

theorem execRdcsr_answers (arg : Arg) (s : State) : ∃ t, exec (.rdcsr arg) s = .next t := by
  change ∃ t, execRdcsr arg s = .next t
  unfold execRdcsr
  split <;> exact ⟨_, rfl⟩

/-- Settles O55: by what the step finds; of the two commands only an XLATE could stop, and `State.Inv.execXlate_answers`
says that it does not. -/
theorem stepAlwaysAnswers : Obligations.StepAlwaysAnswers := by
  intro s hi
  cases hin : s.inputs with
  | nil => exact ⟨s, step_of_no_input hi.noUop hin⟩
  | cons a rest =>
    cases a with
    | rst => exact ⟨_, step_of_rst hi.noUop hin⟩
    | command w =>
      by_cases hw : s.waiting = none
      · cases hd : decode (.command w) with
        | ok i =>
          rw [step_of_command hi.noUop hw hin hd]
          have hu : ({ s with inputs := rest } : State).Inv := hi.of_same_block rfl rfl rfl rfl
          rcases decode_command hd with ⟨arg, rfl⟩ | ⟨arg, rfl⟩
          · exact hu.execXlate_answers arg
          · exact execRdcsr_answers arg _
        | error e => exact ⟨_, step_of_reserved hi.noUop hw hin hd⟩
      · exact ⟨s, step_of_waiting hi.noUop hw (by simp [hin])⟩

end Sys2Proof.Machine

/-! The laws of the words (30_encoding.md): the decoder and the encoder on command words and micro-operations, what a step does
with the word it takes, the fields of a response, and the words of the host's side. -/

namespace Sys2Proof.Machine

/-! ### Command words: `op[1:0] ++ arg[31:0]` (30_encoding.md R90, R91) -/

@[simp] theorem commandWord_opcode (op : BitVec 2) (arg : Arg) : (commandWord op arg).extractLsb' 32 2 = op :=
  BitVec.extractLsb'_append_eq_left

@[simp] theorem commandWord_operand (op : BitVec 2) (arg : Arg) : (commandWord op arg).extractLsb' 0 32 = arg :=
  BitVec.extractLsb'_append_eq_right

/-- A command word is nothing but its two fields. -/
theorem commandWord_of_fields (w : CmdWord) : commandWord (w.extractLsb' 32 2) (w.extractLsb' 0 32) = w := by
  rw [commandWord, BitVec.extractLsb'_append_extractLsb'_eq_extractLsb' (by decide)]
  exact BitVec.extractLsb'_eq_self

theorem decode_of_opcode_xlate {w : CmdWord} (h : w.extractLsb' 32 2 = 0b01#2) :
    decode (.command w) = .ok (.xlate (w.extractLsb' 0 32)) := by
  simp [decode, decodeCommand, h]

theorem decode_of_opcode_rdcsr {w : CmdWord} (h : w.extractLsb' 32 2 = 0b10#2) :
    decode (.command w) = .ok (.rdcsr (w.extractLsb' 0 32)) := by
  simp [decode, decodeCommand, h]

/-- The opcodes that are neither of the two (30_encoding.md R97). -/
theorem decode_of_opcode_reserved {w : CmdWord} (h1 : w.extractLsb' 32 2 ≠ 0b01#2) (h2 : w.extractLsb' 32 2 ≠ 0b10#2) :
    decode (.command w) = .error (.reservedOpcode (w.extractLsb' 32 2)) := by
  simp [decode, decodeCommand, h1, h2]

theorem decode_xlate_word (arg : Arg) : decode (.command (commandWord 0b01#2 arg)) = .ok (.xlate arg) := by
  rw [decode_of_opcode_xlate (commandWord_opcode _ _), commandWord_operand]

theorem decode_rdcsr_word (arg : Arg) : decode (.command (commandWord 0b10#2 arg)) = .ok (.rdcsr arg) := by
  rw [decode_of_opcode_rdcsr (commandWord_opcode _ _), commandWord_operand]

/-- The two commands come back by their two fields, and each micro-operation by its identifier, its operands standing on the
lines that the decoder reads (30_encoding.md R101). -/
theorem decode_encode (i : Instr) : decode (encode i) = .ok i := by
  cases i with
  | xlate arg => exact decode_xlate_word arg
  | rdcsr arg => exact decode_rdcsr_word arg
  | _ => rfl

/-- A command word that decodes is the one word of the instruction: its opcode and its operand are all of it. -/
theorem encode_of_decode_command {w : CmdWord} {i : Instr} (h : decode (.command w) = .ok i) : encode i = .command w := by
  by_cases h1 : w.extractLsb' 32 2 = 0b01#2
  · cases (decode_of_opcode_xlate h1).symm.trans h
    rw [encode, ← h1, commandWord_of_fields]
  · by_cases h2 : w.extractLsb' 32 2 = 0b10#2
    · cases (decode_of_opcode_rdcsr h2).symm.trans h
      rw [encode, ← h2, commandWord_of_fields]
    · cases (decode_of_opcode_reserved h1 h2).symm.trans h

/-- Settles O1: by the constructors of the instruction one way, by the opcode of the word the other. -/
theorem decodeEncodeAgree : Obligations.DecodeEncodeAgree :=
  ⟨decode_encode, fun _ _ => encode_of_decode_command⟩

/-! ### The opcode as a number -/

/-- A word has 34 bits, so what stands above its low 32 is the opcode. -/
theorem opcode_eq_iff (w : CmdWord) (op : BitVec 2) : w.extractLsb' 32 2 = op ↔ w.toNat / 2 ^ 32 = op.toNat := by
  have hlt : w.toNat / 2 ^ 32 < 2 ^ 2 := by omega
  rw [← BitVec.toNat_inj, BitVec.extractLsb'_toNat, Nat.shiftRight_eq_div_pow, Nat.mod_eq_of_lt hlt]

theorem operand_eq_ofNat (w : CmdWord) : w.extractLsb' 0 32 = BitVec.ofNat 32 w.toNat := by
  rw [BitVec.ofNat_toNat, BitVec.setWidth_eq_extractLsb' (by decide)]

/-- Settles O2: the three clauses are the three ways the decoder's test of the opcode can go. -/
theorem opcodePicksCommand : Obligations.OpcodePicksCommand := by
  intro w
  rw [← operand_eq_ofNat]
  refine ⟨fun h => ?_, fun h => ?_, fun h1 h2 => ?_⟩
  · exact decode_of_opcode_xlate ((opcode_eq_iff w 0b01#2).mpr h)
  · exact decode_of_opcode_rdcsr ((opcode_eq_iff w 0b10#2).mpr h)
  · exact ⟨_, decode_of_opcode_reserved (mt (opcode_eq_iff w 0b01#2).mp h1) (mt (opcode_eq_iff w 0b10#2).mp h2)⟩

/-! ### Micro-operations (30_encoding.md R101) -/

/-- Settles O3: with the identifier known the decoder's table is read off, line by line. -/
theorem identifierPicksUop : Obligations.IdentifierPicksUop := by
  rintro ⟨uop, page, frame, stamp, bytes, pa⟩
  refine ⟨?_, ?_, ?_, ?_, ?_, ?_, ?_, ?_, ?_, ?_, ?_, ?_, ?_, ?_, ?_⟩
  case refine_15 => rintro (rfl | rfl) <;> exact ⟨_, rfl⟩
  all_goals
    rintro rfl
    rfl

/-- Settles O4: the decoder on eleven fixed words. -/
theorem writtenWordsDecode : Obligations.WrittenWordsDecode := by
  unfold Obligations.WrittenWordsDecode
  decide

/-! ### Operand bits that are not looked at (30_encoding.md R99) -/

/-- An XLATE sees of its operand the logical address alone (30_encoding.md R92). -/
theorem execXlate_eq_of_logicalAddress_eq {a b : Arg} (h : logicalAddress a = logicalAddress b) (s : State) :
    execXlate a s = execXlate b s := by
  unfold execXlate
  rw [h]

/-- An RDCSR sees of its operand the register number alone (30_encoding.md R93). -/
theorem execRdcsr_eq_of_csrNumber_eq {a b : Arg} (h : csrNumber a = csrNumber b) (s : State) :
    execRdcsr a s = execRdcsr b s := by
  unfold execRdcsr
  rw [h]

/-- Settles O5: each command is a function of the operand bits it names. -/
theorem upperOperandBitsIgnored : Obligations.UpperOperandBitsIgnored :=
  fun s _ _ => ⟨fun h => execXlate_eq_of_logicalAddress_eq h s, fun h => execRdcsr_eq_of_csrNumber_eq h s⟩

/-! ### What is answered ERR_ILLEGAL (30_encoding.md R97, R98) -/

/-- Settles O6: neither reserved opcode decodes, and the step answers what does not decode. -/
theorem reservedOpcodeAnswered : Obligations.ReservedOpcodeAnswered := by
  refine ⟨rfl, fun s w rest hu hw hi hop => step_of_reserved hu hw hi (decode_of_opcode_reserved ?_ ?_)⟩
  all_goals
    intro h
    rw [h] at hop
    exact absurd hop (by decide)

/-- The numbers from 4 on name no register (10_state.md R48). -/
theorem csrOf_reserved {n : BitVec 8} (h : 4 ≤ n.toNat) : csrOf n = none := by
  have h0 : n ≠ 0#8 := by rintro rfl; contradiction
  have h1 : n ≠ 1#8 := by rintro rfl; contradiction
  have h2 : n ≠ 2#8 := by rintro rfl; contradiction
  have h3 : n ≠ 3#8 := by rintro rfl; contradiction
  simp [csrOf, h0, h1, h2, h3]

theorem execRdcsr_reserved {arg : Arg} (s : State) (h : csrOf (csrNumber arg) = none) :
    execRdcsr arg s = .next (respond .errIllegal s) := by
  unfold execRdcsr
  rw [h]

/-- Settles O7: a number from 4 on names no register. -/
theorem reservedCsrNumberAnswered : Obligations.ReservedCsrNumberAnswered :=
  ⟨rfl, fun s _ h => execRdcsr_reserved s (csrOf_reserved h)⟩

/-! ### The fields of a response (30_encoding.md R94 to R96) -/

theorem Response.word_status (r : Response) : r.word.extractLsb' 32 2 = r.status :=
  BitVec.extractLsb'_append_eq_left

/-- A field of the low 32 bits is a field of `data`. -/
theorem Response.word_field (r : Response) {start len : Nat} (h : start + len ≤ 32) :
    r.word.extractLsb' start len = r.data.extractLsb' start len :=
  BitVec.extractLsb'_append_eq_of_add_le h

/-- The data of an XLATE answered OK, from its highest field down (30_encoding.md R95). -/
theorem Response.translated_data (k : Kind) (v : Byte) (pa : PAddr) :
    (Response.translated k v pa).data = (0#6 ++ (k.code ++ v ++ 0#1 ++ pa) : BitVec (6 + 26)) := by
  rw [Response.data, BitVec.setWidth_eq_append (by decide)]
  rfl

/-- The 26 bits below the zeros of an XLATE's data are `kind ++ value ++ 1'b0 ++ pa`. -/
theorem Response.translated_field (k : Kind) (v : Byte) (pa : PAddr) {start len : Nat} (h : start + len ≤ 26) :
    (Response.translated k v pa).word.extractLsb' start len = (k.code ++ v ++ 0#1 ++ pa).extractLsb' start len := by
  rw [Response.word_field _ (by omega), Response.translated_data]
  exact BitVec.extractLsb'_append_eq_of_add_le h

theorem Response.translated_kind (k : Kind) (v : Byte) (pa : PAddr) :
    (Response.translated k v pa).word.extractLsb' 24 2 = k.code := by
  rw [Response.translated_field _ _ _ (by decide), BitVec.extractLsb'_append_eq_of_le (by decide),
    BitVec.extractLsb'_append_eq_of_le (by decide)]
  exact BitVec.extractLsb'_append_eq_left

theorem Response.translated_value (k : Kind) (v : Byte) (pa : PAddr) :
    (Response.translated k v pa).word.extractLsb' 16 8 = v := by
  rw [Response.translated_field _ _ _ (by decide), BitVec.extractLsb'_append_eq_of_le (by decide),
    BitVec.extractLsb'_append_eq_of_le (by decide)]
  exact BitVec.extractLsb'_append_eq_right

theorem Response.translated_pa (k : Kind) (v : Byte) (pa : PAddr) :
    (Response.translated k v pa).word.extractLsb' 0 15 = pa := by
  rw [Response.translated_field _ _ _ (by decide)]
  exact BitVec.extractLsb'_append_eq_right

/-- The bit between `value` and `pa`, and the bits above `kind`, are 0. -/
theorem Response.translated_zeros (k : Kind) (v : Byte) (pa : PAddr) :
    (Response.translated k v pa).word.extractLsb' 15 1 = 0#1 ∧
    (Response.translated k v pa).word.extractLsb' 26 6 = 0#6 := by
  constructor
  · rw [Response.translated_field _ _ _ (by decide), BitVec.extractLsb'_append_eq_of_le (by decide)]
    exact BitVec.extractLsb'_append_eq_right
  · rw [Response.word_field _ (by decide), Response.translated_data]
    exact BitVec.extractLsb'_append_eq_left

/-- With status 00 the word is its data. -/
theorem Response.csr_word_toNat (d : BitVec 32) : (Response.csr d).word.toNat = d.toNat := by
  rw [Response.word, Response.status, Response.data, BitVec.toNat_append]
  simp

/-- Settles O8: field by field of the concatenation that `data` is. -/
theorem responseFieldsPlaced : Obligations.ResponseFieldsPlaced := by
  refine ⟨fun k v pa => ?_, Response.csr_word_toNat, rfl, rfl⟩
  obtain ⟨hgap, htop⟩ := Response.translated_zeros k v pa
  refine ⟨Response.word_status _, Response.translated_pa k v pa, hgap, Response.translated_value k v pa, htop, ?_, ?_, ?_⟩
  all_goals
    rintro rfl
    exact Response.translated_kind _ v pa

/-! ### One response for each command (30_encoding.md R94, 44_backing_store_and_physical_memory.md R188) -/

/-- Step 7 of a translation is what responds: nothing before it does. -/
theorem State.Translates.responses_eq {s u : State} {p : Page} {k : Kind} {f : Frame} (h : s.Translates p k f u) :
    u.responses = s.responses := by
  cases h <;> rfl

/-- However an XLATE ends it has answered once, unless it waits for the store. -/
theorem XlateEnds.one_response {arg : Arg} {s t : State} (h : XlateEnds arg s t) :
    (t.waiting = s.waiting ∧ ∃ r, t.responses = r :: s.responses) ∨
    (t.waiting ≠ none ∧ t.responses = s.responses ∧ t.block = s.block) := by
  cases h with
  | whileHalted => exact .inl ⟨rfl, _, rfl⟩
  | clockFull => exact .inl ⟨rfl, _, rfl⟩
  | answered _ translates =>
    obtain ⟨-, hwait, -⟩ := translates.rest
    exact .inl ⟨hwait, _, congrArg _ translates.responses_eq⟩
  | readFailed => exact .inl ⟨rfl, _, rfl⟩
  | waits => exact .inr ⟨nofun, rfl, rfl⟩

/-- Settles O45: an XLATE by the ways it can end, an RDCSR by its one response. -/
theorem oneResponsePerCommand : Obligations.OneResponsePerCommand := by
  intro s t i hx hcmd hwait
  cases i with
  | xlate arg =>
    have h := (execXlate_ends hx).one_response
    rwa [hwait] at h
  | rdcsr arg =>
    obtain ⟨r, rfl, -⟩ := execRdcsr_eq_next hx
    exact .inl ⟨hwait, r, rfl⟩
  | _ => cases hcmd

/-! ### The step by the word it takes -/

/-- A micro-operation issued on its own is run before anything the host sends (notes/assumptions/8.md). -/
theorem step_of_uop {s : State} {u : UopWord} {i : Instr} (hu : s.uopIssue = some u) (hd : decode (.uop u) = .ok i) :
    step s = exec i { s with uopIssue := none } := by
  simp [step, fetch, hu, hd]

/-- Settles O44: by what the step finds, one lemma for each. -/
theorem stepRunsTheDecodedInstruction : Obligations.StepRunsTheDecodedInstruction :=
  ⟨fun _ _ _ _ => step_of_command, fun _ _ _ => step_of_uop, fun _ => step_of_waiting,
    fun _ hu _ => step_of_no_input hu⟩

/-! ### No micro-operation is issued (30_encoding.md R101, 70_reset_and_hazards.md R253) -/

/-- BS.READ_PAGE gives a result or waits, and uses up a choice; it changes nothing else. -/
theorem execBsReadPage_frame {p : Page} {s t : State} (h : execBsReadPage p s = .next t) :
    t = { s with bsAnswers := t.bsAnswers, waiting := t.waiting, uopResult := t.uopResult } := by
  unfold execBsReadPage at h
  rcases readPage_cases p s with ⟨rest, -, hr⟩ | ⟨rest, -, hr⟩ | ⟨rest, -, -, hr⟩
  all_goals
    rw [hr] at h
    cases h
    rfl

theorem counted_uopIssue {r : Option Block} {s t : State} (h : counted r s = .next t) : t.uopIssue = s.uopIssue := by
  obtain ⟨b, -, rfl⟩ := counted_eq_next h
  rfl

theorem XlateEnds.uopIssue_eq {arg : Arg} {s t : State} (h : XlateEnds arg s t) : t.uopIssue = s.uopIssue := by
  cases h with
  | answered _ translates =>
    obtain ⟨hissue, -, -⟩ := translates.rest
    exact hissue
  | _ => rfl

/-- No instruction issues a micro-operation: the sequencer of an XLATE runs its own inside the one step. -/
theorem exec_uopIssue {s t : State} {i : Instr} (hx : exec i s = .next t) : t.uopIssue = s.uopIssue := by
  cases i with
  | xlate arg => exact (execXlate_ends hx).uopIssue_eq
  | rdcsr arg =>
    obtain ⟨r, rfl, -⟩ := execRdcsr_eq_next hx
    rfl
  | bsReadPage p => rw [execBsReadPage_frame hx]
  | stRecordAccess => exact counted_uopIssue hx
  | stRecordTlbHit => exact counted_uopIssue hx
  | stRecordPageFault => exact counted_uopIssue hx
  | _ => cases hx; rfl

/-- Settles O46: by the kinds of step; one that runs an issued micro-operation has cleared the issue first. -/
theorem noStepIssuesAMicroOperation : Obligations.NoStepIssuesAMicroOperation := by
  intro s t hs
  rcases step_cases hs with ⟨hu, -, -, rfl⟩ | ⟨rest, -, -, rfl⟩ | ⟨i, u, hx, -, hfetch⟩ | ⟨w, rest, hu, -, -, -, rfl⟩
  · exact hu
  · rfl
  · rw [exec_uopIssue hx]
    rcases hfetch with ⟨w, -, -, rfl⟩ | ⟨w, rest, hu, -, -, -, rfl⟩
    · rfl
    · exact hu
  · exact hu

/-! ### The host's words (30_encoding.md R103 to R106) -/

theorem decode_xlateWord (z : Int) : decode (.command (xlateWord z)) = .ok (.xlate (argOfInt z)) :=
  decode_xlate_word _

theorem decode_rdcsrWord (n : BitVec 8) : decode (.command (rdcsrWord n)) = .ok (.rdcsr (n.setWidth 32)) :=
  decode_rdcsr_word _

/-- The operand of an integer, negative or not, is its remainder (30_encoding.md R106). -/
theorem argOfInt_toNat (z : Int) : ((argOfInt z).toNat : Int) = z % 4294967296 := by
  rw [argOfInt, BitVec.toNat_ofInt]
  exact Int.toNat_of_nonneg (Int.emod_nonneg z (by decide))

theorem logicalAddress_toNat (arg : Arg) : (arg.extractLsb' 0 16).toNat = arg.toNat % 65536 := by
  rw [BitVec.extractLsb'_toNat, Nat.shiftRight_zero]

/-- Settles O57: 65,536 divides 2^32, so the logical address is the remainder of the integer itself. -/
theorem integerBecomesItsRemainder : Obligations.IntegerBecomesItsRemainder := by
  intro z
  refine ⟨argOfInt z, decode_xlateWord z, argOfInt_toNat z, ?_⟩
  calc ((argOfInt z).extractLsb' 0 16).toNat
      = ((argOfInt z).toNat : Int) % 65536 := by rw [logicalAddress_toNat, Int.natCast_emod]; rfl
    _ = z % 4294967296 % 65536 := by rw [argOfInt_toNat]
    _ = z % 65536 := Int.emod_emod_of_dvd z (by decide)

/-- Settles O58: a bare line has the commands of an XLATE line by definition, and the three words decode as every RDCSR word does. -/
theorem pseudoInstructionsExpand : Obligations.PseudoInstructionsExpand :=
  ⟨fun _ => rfl, _, _, _, rfl, decode_rdcsrWord 1#8, decode_rdcsrWord 0#8, decode_rdcsrWord 2#8⟩

end Sys2Proof.Machine

/-! XLATE (40_translate.md): each translation as the answer of an execution and as its micro-operations run one after another,
what it leaves in every array of the block, and the laws of R131 and R77; the obligations of that file are settled from
them. -/

namespace Sys2Proof.Machine

/-! ### Each translation is an XLATE's answer -/

/-- Steps 3 to 6 on the block of step 1 end in each of the three translations. -/
theorem State.Translates.resolve_eq {s u : State} {p : Page} {k : Kind} {f : Frame} (h : s.Translates p k f u) :
    resolve p (s.withBlock s.block.started) = .found k f u := by
  cases h with
  | tlbHit room hit => exact resolve_hit (s := s.withBlock s.block.started) hit room
  | tableHit miss mapped => exact resolve_table (s := s.withBlock s.block.started) miss mapped
  | pageFault faults delivers =>
    obtain ⟨miss, unmapped, room⟩ := faults
    rw [resolve_fault (s := s.withBlock s.block.started) miss unmapped,
      serviceFault_of_ne (s := s.withBlock s.block.started) room, readPage_withBlock, readPage_of_delivers delivers]
    rfl

/-- A live XLATE that finds one of the three translations answers it: the converse of `execXlate_answered`. -/
theorem State.Translates.exec_eq {s u : State} {arg : Arg} {k : Kind} {f : Frame} (hl : s.Live)
    (h : s.Translates (arg.extractLsb' 8 8) k f u) :
    exec (.xlate arg) s = .next (finishAccess k f (arg.extractLsb' 0 8) u) := by
  obtain ⟨running, hclock, hadd⟩ := hl
  change s.block.clock ≠ Config.ctrMax at hclock
  simp [exec, execXlate, Block.halted, running, hclock, startAccess_of_ne hadd, pageOf_logicalAddress,
    offsetOf_logicalAddress, h.resolve_eq]

/-! ### The micro-operations of R132, one after another -/

theorem runInstrs_cons {i : Instr} {is : List Instr} {s t : State} {r : Host.Outcome State Fault Refusal}
    (h : exec i s = .next t) (hr : runInstrs is t = r) : runInstrs (i :: is) s = r := by
  rw [runInstrs, h, ← hr]

theorem exec_stRecordAccess_of_ne {s : State} (h : s.block.statAddresses ≠ Config.ctrMax) :
    exec .stRecordAccess s =
      .next { s with block := { s.block with statAddresses := s.block.statAddresses + 1#32 }, uopResult := .none } := by
  simp [exec, execStRecordAccess, counted, recordAccess_of_ne h]

theorem exec_stRecordTlbHit_of_ne {s : State} (h : s.block.statTlbHits ≠ Config.ctrMax) :
    exec .stRecordTlbHit s =
      .next { s with block := { s.block with statTlbHits := s.block.statTlbHits + 1#32 }, uopResult := .none } := by
  simp [exec, execStRecordTlbHit, counted, recordTlbHit_of_ne h]

theorem exec_stRecordPageFault_of_ne {s : State} (h : s.block.statPageFaults ≠ Config.ctrMax) :
    exec .stRecordPageFault s =
      .next { s with block := { s.block with statPageFaults := s.block.statPageFaults + 1#32 }, uopResult := .none } := by
  simp [exec, execStRecordPageFault, counted, recordPageFault_of_ne h]

theorem exec_tlbLookup_of_hit {s : State} {p : Page} {j : Fin 16} {e : TlbEntry} (h : s.block.TlbHits p j e) :
    exec (.tlbLookup p) s = .next { s with
      block := s.block.setSlot j (some { e with stamp := s.block.clock }), uopResult := .frame (some e.frame) } := by
  obtain ⟨hj, hpage, hlow⟩ := h
  simp [exec, execTlbLookup, lookupTlb_hit hj hpage hlow]

theorem exec_tlbLookup_of_miss {s : State} {p : Page} (h : s.block.TlbMisses p) :
    exec (.tlbLookup p) s = .next { s with uopResult := .frame none } := by
  simp [exec, execTlbLookup, lookupTlb_miss h]

theorem exec_bsReadPage_of_delivers {s : State} {p : Page} (h : s.StoreDelivers p) :
    exec (.bsReadPage p) s =
      .next { s with bsAnswers := s.bsAnswers.tail, uopResult := .page (some (s.store.page p)) } := by
  simp [exec, execBsReadPage, readPage_of_delivers h]

/-- Which frame FA.ALLOCATE returns depends on the occupancy and the cursor alone. -/
theorem allocateFrame_fst (p : Page) (b : Block) : (allocateFrame p b).1 = (freeFrame b).getD b.fifoCursor := by
  unfold allocateFrame
  split <;> simp [*, evictFrame]

theorem xlateTrace_of_hit {s : State} {arg : Arg} {j : Fin 16} {e : TlbEntry}
    (h : s.block.TlbHits (arg.extractLsb' 8 8) j e) :
    xlateTrace arg s = [.stRecordAccess, .tlbLookup (arg.extractLsb' 8 8), .stRecordTlbHit,
      .pmReadByte (physicalAddress e.frame (arg.extractLsb' 0 8))] := by
  obtain ⟨hj, hpage, hlow⟩ := h
  simp [xlateTrace, pageOf_logicalAddress, offsetOf_logicalAddress, lookupTlb_hit hj hpage hlow]

theorem xlateTrace_of_miss {s : State} {arg : Arg} (h : s.block.TlbMisses (arg.extractLsb' 8 8)) :
    xlateTrace arg s = .stRecordAccess :: .tlbLookup (arg.extractLsb' 8 8) ::
      missTrace (arg.extractLsb' 8 8) (arg.extractLsb' 0 8) s := by
  simp [xlateTrace, pageOf_logicalAddress, offsetOf_logicalAddress, lookupTlb_miss h]

theorem missTrace_of_mapped {s : State} {p : Page} {f : Frame} (h : s.block.ptEntry p = some f) (o : Offset) :
    missTrace p o s = [.ptLookup p, .tlbInsert p f s.block.clock, .pmReadByte (physicalAddress f o)] := by
  simp [missTrace, lookupPt, h]

theorem missTrace_of_delivers {s : State} {p : Page} (h : s.block.ptEntry p = none) (hd : s.StoreDelivers p) (o : Offset) :
    missTrace p o s = [.ptLookup p, .stRecordPageFault, .faAllocate p, .bsReadPage p,
      .pmWriteFrame (allocateFrame p s.block).1 (s.store.page p), .ptMap p (allocateFrame p s.block).1,
      .faOccupy (allocateFrame p s.block).1 p, .tlbInsert p (allocateFrame p s.block).1 s.block.clock,
      .pmReadByte (physicalAddress (allocateFrame p s.block).1 o)] := by
  simp [missTrace, lookupPt, h, readPage_of_delivers hd]

/-- The state in which R132 starts its trace: the clock advanced, the access not yet counted. -/
def State.ticked (s : State) : State := s.withBlock { s.block with clock := s.block.clock + 1#32 }

/-- The trace of each translation ends in that translation's state, with the byte of step 7 as its result. Only the
micro-operations that depend on a hypothesis are named in the chain; the others run by definition. -/
theorem State.Translates.runInstrs_eq {s u : State} {arg : Arg} {k : Kind} {f : Frame}
    (ha : s.block.statAddresses ≠ Config.ctrMax) (h : s.Translates (arg.extractLsb' 8 8) k f u) :
    runInstrs (xlateTrace arg s.ticked) s.ticked =
      .next { u with uopResult := .byte (readByte (physicalAddress f (arg.extractLsb' 0 8)) u) } := by
  have access := exec_stRecordAccess_of_ne (s := s.ticked) ha
  cases h with
  | tlbHit room hit =>
    rw [xlateTrace_of_hit (s := s.ticked) hit]
    refine runInstrs_cons access ?_
    refine runInstrs_cons (exec_tlbLookup_of_hit hit) ?_
    exact runInstrs_cons (exec_stRecordTlbHit_of_ne room) rfl
  | tableHit miss mapped =>
    rw [xlateTrace_of_miss (s := s.ticked) miss, missTrace_of_mapped (s := s.ticked) mapped]
    refine runInstrs_cons access ?_
    exact runInstrs_cons (exec_tlbLookup_of_miss miss) rfl
  | pageFault faults delivers =>
    obtain ⟨miss, unmapped, room⟩ := faults
    have hframe : (allocateFrame (arg.extractLsb' 8 8) s.ticked.block).1 =
        (s.block.started.afterAllocate (arg.extractLsb' 8 8)).1 := by
      rw [Block.afterAllocate, allocateFrame_fst, allocateFrame_fst]
      rfl
    rw [xlateTrace_of_miss (s := s.ticked) miss, missTrace_of_delivers (s := s.ticked) unmapped delivers, hframe]
    refine runInstrs_cons access ?_
    refine runInstrs_cons (exec_tlbLookup_of_miss miss) ?_
    refine runInstrs_cons rfl ?_
    refine runInstrs_cons (exec_stRecordPageFault_of_ne room) ?_
    refine runInstrs_cons rfl ?_
    exact runInstrs_cons (exec_bsReadPage_of_delivers delivers) rfl

/-- Settles O14: the trace and the sequencer end in the same state (`State.Translates.runInstrs_eq`). -/
theorem xlateIsItsMicroOperations : Obligations.XlateIsItsMicroOperations := by
  intro s t arg k v pa _ _ hx hr
  obtain ⟨⟨-, -, hadd⟩, f, u, ht, rfl, rfl, rfl⟩ := execXlate_answered hx hr
  exact ⟨_, ht.runInstrs_eq hadd, rfl, rfl, rfl, ht.responses_eq⟩

/-! ### The page is installed -/

/-- Each of the three paths leaves a slot that holds the page and its frame, stamped with the new clock
(40_translate.md R131 (c)). -/
theorem State.Translates.slot_installed {s u : State} {p : Page} {k : Kind} {f : Frame} (h : s.Translates p k f u) :
    ∃ i, u.block.slot i = some ⟨p, f, u.block.clock⟩ := by
  obtain ⟨hclock, -, -⟩ := h.started
  rw [hclock]
  cases h with
  | @tlbHit j e room hit =>
    obtain ⟨-, rfl, -⟩ := hit
    exact ⟨j, (Block.slot_setSlot s.block.started j j _).trans (if_pos rfl)⟩
  | tableHit => exact ⟨_, (insertTlb_slot ..).trans (if_pos rfl)⟩
  | pageFault => exact ⟨_, (insertTlb_slot ..).trans (if_pos rfl)⟩

/-- In a state of a run a translation leaves the promises. -/
theorem State.Inv.good_translated {s u : State} {p : Page} {k : Kind} {f : Frame} (hi : s.Inv) (hl : s.Live)
    (h : s.Translates p k f u) : u.block.Good s.store :=
  h.good (hi.mid_started hl)

/-- With the promises, a slot's frame is occupied by the slot's page (10_state.md R36, R37). -/
theorem Block.Good.occEntry_of_slot {st : Store} {b : Block} (g : b.Good st) {i : Fin 16} {e : TlbEntry}
    (h : b.slot i = some e) : b.occEntry e.frame = some e.page :=
  (g.occInverse _ _).mpr (g.tlbSubset i e h)

/-- Settles O16: the slot is installed, and the promises carry it to the page table and the occupancy. -/
theorem xlateInstallsItsPage : Obligations.XlateInstallsItsPage := by
  intro s t arg k v pa hi hx hr
  obtain ⟨hl, f, u, ht, rfl, rfl, -⟩ := execXlate_answered hx hr
  have g := hi.good_translated hl ht
  obtain ⟨i, hslot⟩ := ht.slot_installed
  exact ⟨f, i, g.tlbSubset i _ hslot, hslot, g.occEntry_of_slot hslot, frameOf_physicalAddress f _⟩

/-! ### The byte answered -/

theorem readByte_of_read {s : State} {pa : PAddr} {w : Byte} (h : Memory.read s.block.pm pa.toNat = some w) :
    readByte pa s = w := by
  simp [readByte, h]

/-- The store's offset of an operand's page and offset is its logical address (30_encoding.md R92). -/
theorem storeOffset_of_arg (arg : Arg) : storeOffset (arg.extractLsb' 8 8) (arg.extractLsb' 0 8) = arg.extractLsb' 0 16 := by
  rw [← pageOf_logicalAddress, ← offsetOf_logicalAddress, storeOffset_pageOf_offsetOf, logicalAddress]

/-- Settles O18: the frame is occupied by the page, and an occupied frame mirrors the store (10_state.md R44). -/
theorem translationReturnsStoreByte : Obligations.TranslationReturnsStoreByte := by
  intro s t arg k v pa hi hx hr
  obtain ⟨hl, f, u, ht, -, rfl, rfl⟩ := execXlate_answered hx hr
  have g := hi.good_translated hl ht
  obtain ⟨i, hslot⟩ := ht.slot_installed
  have hmirror := g.mirrors f _ (arg.extractLsb' 0 8) (g.occEntry_of_slot hslot)
  rw [storeOffset_of_arg] at hmirror
  exact ⟨readByte_of_read hmirror, offset_physicalAddress f _⟩

/-! ### Translating the page again -/

theorem Block.afterHit_slot (b : Block) (j : Fin 16) (e : TlbEntry) (i : Fin 16) :
    (b.afterHit j e).slot i = if i = j then some { e with stamp := b.clock } else b.slot i := by
  simp only [eq_comm (a := i)]
  exact b.slot_setSlot j i _

/-- With the promises, a slot is the lowest that holds its page (10_state.md R38). -/
theorem Block.Good.tlbHits_of_slot {st : Store} {b : Block} (g : b.Good st) {i : Fin 16} {e : TlbEntry}
    {p : Page} (h : b.slot i = some e) (hp : e.page = p) : b.TlbHits p i e :=
  ⟨h, hp, fun j hj d hd hpage => absurd (g.tlbUnique j i d e hd h (hpage.trans hp.symm)) (Fin.ne_of_lt hj)⟩

/-- While the clock has a next value, a block that keeps its promises and is not halted can take an access. -/
theorem Block.Good.live {st : Store} {s : State} (g : s.block.Good st) (running : s.block.status.halted = false)
    (hc : s.block.clock ≠ Config.ctrMax) : s.Live :=
  ⟨running, hc, (g.counters_ne_max hc).1⟩

/-- Settles O15: the slot that the first XLATE installed is the one the second hits, and only its stamp is rewritten. -/
theorem retranslationHits : Obligations.RetranslationHits := by
  intro s t a b k v pa hi hx hr hclock hpage
  obtain ⟨hl, f, u, ht, rfl, rfl, -⟩ := execXlate_answered hx hr
  have g := hi.good_translated hl ht
  obtain ⟨i, hslot⟩ := ht.slot_installed
  obtain ⟨-, room, -⟩ := g.counters_ne_max hclock
  obtain ⟨-, -, hstatus⟩ := ht.started
  obtain ⟨running, -, -⟩ := hl
  have again := State.Translates.tlbHit (s := finishAccess k f (a.extractLsb' 0 8) u) room
    (g.tlbHits_of_slot hslot hpage.symm)
  have live : (finishAccess k f (a.extractLsb' 0 8) u).Live := g.live (by rw [hstatus, running]) hclock
  have hframe : (physicalAddress f (a.extractLsb' 0 8)).extractLsb' 8 7 = f := frameOf_physicalAddress f _
  rw [hframe]
  refine ⟨_, _, again.exec_eq live, rfl, fun i' => ?_⟩
  rw [finishAccess_block, State.withBlock_block, Block.afterHit_slot, finishAccess_block, Block.started_slot]
  split
  next h => rw [h, hslot]; rfl
  next => rfl

/-! ### What each kind of XLATE does -/

/-- Settles O9: the hit translates, and its block is `Block.afterHit` of the block of step 1. -/
theorem xlateOnTlbHit : Obligations.XlateOnTlbHit := by
  intro s arg j e hl room hit
  refine ⟨_, _, (State.Translates.tlbHit room hit).exec_eq hl, fun w hw => readByte_of_read ?_, rfl, rfl,
    s.block.started.afterHit_slot j e⟩
  rw [physicalAddress_toNat]
  exact hw

/-- TLB.INSERT writes the one slot that 41_tlb.md R142 chooses. -/
theorem insertTlb_slot_cases (p : Page) (f : Frame) (c : Counter) (b : Block) :
    ∃ j, IsInsertSlot b.slot p j ∧ ∀ i, (insertTlb p f c b).slot i = if i = j then some ⟨p, f, c⟩ else b.slot i := by
  refine ⟨_, isInsertSlot_insertSlot b p, fun i => ?_⟩
  rw [insertTlb_slot]
  simp only [eq_comm]

/-- Settles O10: the table hit translates, and its block is the one of step 1 with TLB.INSERT's one slot written. -/
theorem xlateOnTableHit : Obligations.XlateOnTableHit := by
  intro s arg f hl miss mapped
  obtain ⟨j, hj, hslot⟩ := insertTlb_slot_cases (arg.extractLsb' 8 8) f s.block.started.clock s.block.started
  refine ⟨_, _, j, (State.Translates.tableHit miss mapped).exec_eq hl, fun w hw => readByte_of_read ?_, rfl, rfl, hj, hslot⟩
  rw [physicalAddress_toNat]
  exact hw

/-! ### What a page fault leaves -/

theorem Block.afterFault_ptEntry (b : Block) (p q : Page) (d : PageBytes) : (b.afterFault p d).ptEntry q =
    if q = p then some (b.afterAllocate p).1 else (b.afterAllocate p).2.ptEntry q := by
  rw [Block.afterFault, insertTlb_ptEntry, loadPage_ptEntry]
  simp only [eq_comm]

theorem Block.afterFault_occEntry (b : Block) (p : Page) (d : PageBytes) (g : Frame) : (b.afterFault p d).occEntry g =
    if g = (b.afterAllocate p).1 then some p else (b.afterAllocate p).2.occEntry g := by
  rw [Block.afterFault, insertTlb_occEntry, loadPage_occEntry]
  simp only [eq_comm]

/-- The frame allocated holds the store's page, and every other frame's bytes are as before. -/
theorem Block.read_afterFault (b : Block) (p : Page) (st : Store) (g : Frame) (i : Offset) :
    Memory.read (b.afterFault p (st.page p)).pm (g.toNat * 256 + i.toNat) =
      if g = (b.afterAllocate p).1 then some (st.byte (storeOffset p i))
      else Memory.read b.pm (g.toNat * 256 + i.toNat) := by
  obtain ⟨-, hpm, -⟩ := b.afterAllocate_frame p
  rw [← physicalAddress_toNat, Block.afterFault, insertTlb_pm, loadPage_pm, read_writeFrame, Store.page_getElem, hpm]
  simp only [eq_comm]

theorem Block.afterFault_slot (b : Block) (p : Page) (d : PageBytes) :
    ∃ j, IsInsertSlot (b.afterAllocate p).2.slot p j ∧ ∀ i, (b.afterFault p d).slot i =
      if i = j then some ⟨p, (b.afterAllocate p).1, b.clock⟩ else (b.afterAllocate p).2.slot i :=
  insertTlb_slot_cases p (b.afterAllocate p).1 b.clock (loadPage p (b.afterAllocate p).1 d (b.afterAllocate p).2)

/-- Loading the page leaves what the allocation left of the scalars. -/
theorem Block.afterFault_frame (b : Block) (p : Page) (d : PageBytes) :
    b.afterFault p d = { (b.afterAllocate p).2 with
      tlb := (b.afterFault p d).tlb, pt := (b.afterFault p d).pt
      occ := (b.afterFault p d).occ, pm := (b.afterFault p d).pm } := rfl

/-- A page fault that the store delivers answers the store's byte in the frame allocated. -/
theorem execXlate_of_fault {s : State} {arg : Arg} (hl : s.Live) (hf : s.Faults (arg.extractLsb' 8 8))
    (hd : s.StoreDelivers (arg.extractLsb' 8 8)) :
    exec (.xlate arg) s = .next { s with
      block := s.block.started.afterFault (arg.extractLsb' 8 8) (s.store.page (arg.extractLsb' 8 8))
      bsAnswers := s.bsAnswers.tail
      responses := .translated .pageFault (s.store.byte (arg.extractLsb' 0 16))
        (physicalAddress (s.block.started.afterAllocate (arg.extractLsb' 8 8)).1 (arg.extractLsb' 0 8)) ::
          s.responses } := by
  rw [(State.Translates.pageFault hf hd).exec_eq hl, finishAccess, readByte_of_read]
  · rfl
  · rw [State.withBlock_block, physicalAddress_toNat, Block.read_afterFault, if_pos rfl, storeOffset_of_arg]

/-- Everything a page fault does, from the frame and the block that its allocation leaves (40_translate.md R125, R126). -/
theorem execXlate_of_allocated {s : State} {arg : Arg} {fr : Frame} {B : Block} (hl : s.Live)
    (hf : s.Faults (arg.extractLsb' 8 8)) (hd : s.StoreDelivers (arg.extractLsb' 8 8))
    (halloc : s.block.started.afterAllocate (arg.extractLsb' 8 8) = (fr, B)) :
    ∃ t j, exec (.xlate arg) s = .next t ∧
      t = { s with
        block := t.block, bsAnswers := s.bsAnswers.tail
        responses := .translated .pageFault (s.store.byte (arg.extractLsb' 0 16))
          (physicalAddress fr (arg.extractLsb' 0 8)) :: s.responses } ∧
      t.block = { B with tlb := t.block.tlb, pt := t.block.pt, occ := t.block.occ, pm := t.block.pm } ∧
      (∀ q, t.block.ptEntry q = if q = arg.extractLsb' 8 8 then some fr else B.ptEntry q) ∧
      (∀ g, t.block.occEntry g = if g = fr then some (arg.extractLsb' 8 8) else B.occEntry g) ∧
      (∀ (g : Frame) (i : Offset), Memory.read t.block.pm (g.toNat * 256 + i.toNat) =
        if g = fr then some (s.store.byte (storeOffset (arg.extractLsb' 8 8) i))
        else Memory.read s.block.pm (g.toNat * 256 + i.toNat)) ∧
      IsInsertSlot B.slot (arg.extractLsb' 8 8) j ∧
      ∀ i, t.block.slot i = if i = j then some ⟨arg.extractLsb' 8 8, fr, s.block.clock + 1#32⟩ else B.slot i := by
  obtain rfl : (s.block.started.afterAllocate (arg.extractLsb' 8 8)).1 = fr := by rw [halloc]
  obtain rfl : (s.block.started.afterAllocate (arg.extractLsb' 8 8)).2 = B := by rw [halloc]
  obtain ⟨j, hj, hslot⟩ := s.block.started.afterFault_slot (arg.extractLsb' 8 8) (s.store.page (arg.extractLsb' 8 8))
  exact ⟨_, j, execXlate_of_fault hl hf hd, rfl, Block.afterFault_frame .., fun q => Block.afterFault_ptEntry ..,
    Block.afterFault_occEntry _ _ _, Block.read_afterFault _ _ _, hj, hslot⟩

/-- FA.ALLOCATE with an empty frame takes the lowest and changes nothing (43_frame_allocator.md R170). -/
theorem allocateFrame_of_free {b : Block} {f : Frame} (p : Page) (hf : b.occEntry f = none)
    (hlow : ∀ g < f, b.occEntry g ≠ none) : allocateFrame p b = (f, b) := by
  simp [allocateFrame, freeFrame_eq_some.mpr ⟨hf, hlow⟩]

/-- With every frame occupied the allocation of a page fault evicts the page `vp` in the cursor's frame
(43_frame_allocator.md R171). -/
theorem Block.afterAllocate_of_full {b : Block} {vp : Page} (p : Page) (hfull : ∀ g, b.occEntry g ≠ none)
    (hv : b.occEntry b.fifoCursor = some vp) :
    ∃ B, b.afterAllocate p = (b.fifoCursor, B) ∧
      B = { b with
        statPageFaults := b.statPageFaults + 1#32, fifoCursor := b.fifoCursor + 1#7
        tlb := B.tlb, pt := B.pt, occ := B.occ } ∧
      (∀ q, B.ptEntry q = if q = vp then none else b.ptEntry q) ∧
      (∀ g, B.occEntry g = if g = b.fifoCursor then none else b.occEntry g) ∧
      B.slot = fun i => (b.slot i).filter fun e => e.page != vp := by
  rcases allocateFrame_cases p { b with statPageFaults := b.statPageFaults + 1#32 }
    with ⟨f, hf, -⟩ | ⟨-, vp', hv', halloc⟩
  · exact absurd hf (hfull f)
  · obtain rfl : vp = vp' := Option.some.inj (hv.symm.trans hv')
    refine ⟨_, halloc, rfl, fun q => ?_, fun g => ?_, funext (evictPage_slot vp _)⟩
    · rw [Block.setOccEntry_ptEntry, evictPage_ptEntry]
      simp only [eq_comm]
      rfl
    · rw [Block.occEntry_setOccEntry]
      simp only [eq_comm]
      rfl

/-- Settles O11: `execXlate_of_allocated` with the lowest empty frame. -/
theorem xlateOnFaultWithFreeFrame : Obligations.XlateOnFaultWithFreeFrame := by
  intro s arg f hl hf hd hempty hlow
  exact execXlate_of_allocated hl hf hd (allocateFrame_of_free _ hempty hlow)

/-- Settles O12: `execXlate_of_allocated` with the cursor's frame; of what the eviction cleared, the frame is occupied
again. -/
theorem xlateOnFaultWithEviction : Obligations.XlateOnFaultWithEviction := by
  intro s arg vp hl hf hd hfull hv
  obtain ⟨B, halloc, hB, hBpt, hBocc, hBslot⟩ :=
    Block.afterAllocate_of_full (b := s.block.started) (arg.extractLsb' 8 8) hfull hv
  obtain ⟨t, j, hx, ht, hframe, hpt, hocc, hpm, hj, hslot⟩ := execXlate_of_allocated hl hf hd halloc
  rw [hB] at hframe
  rw [hBslot] at hj hslot
  refine ⟨t, j, hx, ht, hframe, fun q => ?_, fun g => ?_, hpm, hj, hslot⟩
  · rw [hpt, hBpt]
    rfl
  · exact (hocc g).trans (ite_congr rfl (fun _ => rfl) fun hg => (hBocc g).trans (if_neg hg))

/-! ### What makes an XLATE fatal -/

/-- Settles O19: of the five ends, the three that answer ERR_FATAL are the three causes. -/
theorem onlyTheseMakeXlateFatal : Obligations.OnlyTheseMakeXlateFatal := by
  intro s t arg hx hr
  cases execXlate_ends hx with
  | whileHalted halted => exact .inl ⟨halted, rfl⟩
  | clockFull running full => exact .inr (.inl ⟨running, full, rfl⟩)
  | answered => cases hr
  | readFailed live faults fails =>
    obtain ⟨running, hclock, -⟩ := live
    exact .inr (.inr ⟨running, hclock, faults, fails, raiseFatal_status _ _⟩)
  | waits => exact absurd hr.symm (List.cons_ne_self _ _)

end Sys2Proof.Machine

/-! The TLB controller's laws (41_tlb.md): the three micro-operations slot by slot, the lookups after an insert and after an
invalidate, and the number of valid slots; the obligations of that file are settled from them. -/

namespace Sys2Proof.Machine

/-! ### The three micro-operations -/

theorem exec_tlbInsert (p : Page) (f : Frame) (c : Counter) (s : State) :
    exec (.tlbInsert p f c) s = .next { s with block := insertTlb p f c s.block, uopResult := .none } := rfl

theorem exec_tlbInvalidate (p : Page) (s : State) :
    exec (.tlbInvalidate p) s = .next { s with block := invalidateTlb p s.block, uopResult := .none } := rfl

/-- Settles O20: TLB.LOOKUP's two cases, the hit as one slot written. -/
theorem tlbLookupStampsOrMisses : Obligations.TlbLookupStampsOrMisses := by
  intro s p
  refine ⟨fun j e hit => ⟨_, exec_tlbLookup_of_hit hit, rfl, rfl, fun i => ?_⟩, exec_tlbLookup_of_miss⟩
  rw [Block.slot_setSlot]
  simp only [eq_comm]

/-- Settles O21: the slot written is the one of `insertTlb_slot_cases`. -/
theorem tlbInsertWritesOneSlot : Obligations.TlbInsertWritesOneSlot := by
  intro s p f c
  obtain ⟨j, hj, hslot⟩ := insertTlb_slot_cases p f c s.block
  exact ⟨_, j, exec_tlbInsert p f c s, rfl, rfl, hj, hslot⟩

/-- Settles O22: every slot is filtered by its page, whether it is valid or not. -/
theorem tlbInvalidateClearsThePage : Obligations.TlbInvalidateClearsThePage := by
  intro s p
  refine ⟨_, exec_tlbInvalidate p s, rfl, rfl, fun i => ⟨fun e he hp => ?_, fun e he hp => ?_, fun hn => ?_⟩⟩
  · simp [invalidateTlb_slot, he, hp]
  · exact invalidateTlb_slot_eq_some.mpr ⟨he, hp⟩
  · simp [invalidateTlb_slot, hn]

/-! ### A lookup after an insert and after an invalidate (41_tlb.md R146) -/

/-- No slot below the one TLB.INSERT chooses holds the page. -/
theorem IsInsertSlot.lower_page_ne {slot : Fin 16 → Option TlbEntry} {p : Page} {j : Fin 16} (h : IsInsertSlot slot p j) :
    ∀ i < j, ∀ d, slot i = some d → d.page ≠ p := by
  rcases h with ⟨-, -, -, hlow⟩ | ⟨miss, -⟩ | ⟨miss, -⟩
  · exact hlow
  · exact fun i _ => miss i
  · exact fun i _ => miss i

theorem insertTlb_hits (p : Page) (f : Frame) (c : Counter) (b : Block) :
    ∃ j, (insertTlb p f c b).TlbHits p j ⟨p, f, c⟩ := by
  obtain ⟨j, hj, hslot⟩ := insertTlb_slot_cases p f c b
  refine ⟨j, (hslot j).trans (if_pos rfl), rfl, fun i hi d hd => ?_⟩
  rw [hslot, if_neg (Fin.ne_of_lt hi)] at hd
  exact hj.lower_page_ne i hi d hd

theorem invalidateTlb_misses (p : Page) (b : Block) : (invalidateTlb p b).TlbMisses p :=
  fun _ _ h => (invalidateTlb_slot_eq_some.mp h).2

/-- Settles O23: after the insert the lookup hits the slot written; after the invalidate it misses. -/
theorem tlbLookupAfterInsertAndInvalidate : Obligations.TlbLookupAfterInsertAndInvalidate := by
  intro s p f c
  obtain ⟨j, hit⟩ := insertTlb_hits p f c s.block
  exact ⟨⟨_, _, exec_tlbInsert p f c s, exec_tlbLookup_of_hit hit, rfl⟩,
    ⟨_, _, exec_tlbInvalidate p s, exec_tlbLookup_of_miss (invalidateTlb_misses p s.block), rfl⟩⟩

/-! ### The number of valid slots (41_tlb.md R145) -/

theorem Block.valid_eq_true {b : Block} {i : Fin 16} : b.valid i = true ↔ b.slot i ≠ none :=
  Option.isSome_iff_ne_none

theorem Block.validCount_reset : Block.reset.validCount = 0 := by
  simp [Block.validCount, Block.valid]

theorem Block.validCount_le (b : Block) : b.validCount ≤ 16 := Finset.card_le_univ _

/-- The count depends only on which slots are valid. -/
theorem Block.validCount_congr {b c : Block} (h : ∀ i, c.slot i = none ↔ b.slot i = none) :
    c.validCount = b.validCount := by
  simp only [Block.validCount, Block.valid_eq_true, ne_eq, h]

/-- A block with one more valid slot than another counts one more. -/
theorem Block.validCount_of_filled {b c : Block} {j : Fin 16} (hb : b.slot j = none) (hc : c.slot j ≠ none)
    (h : ∀ i, i ≠ j → (c.slot i = none ↔ b.slot i = none)) : c.validCount = b.validCount + 1 := by
  have hset : (Finset.univ.filter fun i => c.valid i = true) =
      insert j (Finset.univ.filter fun i => b.valid i = true) := by
    ext i
    by_cases hij : i = j
    · simp [hij, Block.valid_eq_true, hc]
    · simp [hij, Block.valid_eq_true, h i hij]
  have hj : j ∉ Finset.univ.filter fun i => b.valid i = true := by simp [Block.valid_eq_true, hb]
  rw [Block.validCount, hset, Finset.card_insert_of_notMem hj, Block.validCount]

/-- Writing a valid slot again leaves the count. -/
theorem Block.validCount_setSlot_of_valid {b : Block} {j : Fin 16} (hj : b.slot j ≠ none) (e : TlbEntry) :
    (b.setSlot j (some e)).validCount = b.validCount := by
  refine Block.validCount_congr fun i => ?_
  rw [Block.slot_setSlot]
  split
  next hij => simp [← hij, hj]
  next => rfl

/-- Filling an invalid slot adds one to the count. -/
theorem Block.validCount_setSlot_of_invalid {b : Block} {j : Fin 16} (hj : b.slot j = none) (e : TlbEntry) :
    (b.setSlot j (some e)).validCount = b.validCount + 1 := by
  refine Block.validCount_of_filled hj ?_ fun i hij => ?_
  · simp [Block.slot_setSlot]
  · rw [Block.slot_setSlot, if_neg hij.symm]

/-- TLB.INSERT chooses an invalid slot exactly in case (b) of 41_tlb.md R142. -/
theorem IsInsertSlot.eq_none_iff {slot : Fin 16 → Option TlbEntry} {p : Page} {j : Fin 16} (h : IsInsertSlot slot p j) :
    slot j = none ↔ (∀ i e, slot i = some e → e.page ≠ p) ∧ ∃ i, slot i = none := by
  rcases h with ⟨e, hj, hpage, -⟩ | ⟨miss, hj, -⟩ | ⟨-, full, -⟩
  · exact ⟨fun hn => absurd (hj.symm.trans hn) (Option.some_ne_none e), fun ⟨miss, _⟩ => absurd hpage (miss j e hj)⟩
  · exact ⟨fun _ => ⟨miss, j, hj⟩, fun _ => hj⟩
  · exact ⟨fun hn => absurd hn (full j), fun ⟨_, i, hi⟩ => absurd hi (full i)⟩

theorem insertTlb_validCount_of_filled {p : Page} {b : Block} (f : Frame) (c : Counter) (miss : b.TlbMisses p)
    (room : ∃ i, b.slot i = none) : (insertTlb p f c b).validCount = b.validCount + 1 :=
  Block.validCount_setSlot_of_invalid ((isInsertSlot_insertSlot b p).eq_none_iff.mpr ⟨miss, room⟩) _

theorem insertTlb_validCount_of_replaced {p : Page} {b : Block} (f : Frame) (c : Counter)
    (h : ¬ b.TlbMisses p ∨ ∀ i, b.slot i ≠ none) : (insertTlb p f c b).validCount = b.validCount := by
  refine Block.validCount_setSlot_of_valid (fun hn => ?_) _
  obtain ⟨miss, i, hi⟩ := (isInsertSlot_insertSlot b p).eq_none_iff.mp hn
  rcases h with found | full
  · exact found miss
  · exact full i hi

/-- TLB.INVALIDATE leaves every slot that does not hold the page. -/
theorem invalidateTlb_slot_of_ne {p : Page} {b : Block} {i : Fin 16} (h : ∀ e, b.slot i = some e → e.page ≠ p) :
    (invalidateTlb p b).slot i = b.slot i :=
  Option.ext fun e => invalidateTlb_slot_eq_some.trans (and_iff_left_of_imp (h e))

theorem invalidateTlb_validCount_of_misses {p : Page} {b : Block} (miss : b.TlbMisses p) :
    (invalidateTlb p b).validCount = b.validCount :=
  Block.validCount_congr fun i => by rw [invalidateTlb_slot_of_ne (miss i)]

/-- Where one slot alone holds the page, TLB.INVALIDATE empties that slot and leaves the others. -/
theorem invalidateTlb_validCount_of_found {p : Page} {b : Block} (unique : b.TlbUnique) (found : ¬ b.TlbMisses p) :
    (invalidateTlb p b).validCount + 1 = b.validCount := by
  simp only [Block.TlbMisses, ne_eq, not_forall, not_not, exists_prop] at found
  obtain ⟨j, e, hj, hpage⟩ := found
  refine (Block.validCount_of_filled (j := j) ?_ ?_ fun i hij => ?_).symm
  · simp [invalidateTlb_slot, hj, hpage]
  · simp [hj]
  · rw [invalidateTlb_slot_of_ne fun d hd hp => hij (unique i j d e hd hj (hp.trans hpage.symm))]

theorem lookupTlb_validCount (p : Page) (b : Block) : (lookupTlb p b).2.validCount = b.validCount := by
  rcases lookupTlb_cases p b with ⟨-, h⟩ | ⟨j, e, hj, -, -, h⟩
  · rw [h]
  · rw [h]
    exact Block.validCount_setSlot_of_valid (by simp [hj]) _

/-- Settles O24: the count of each micro-operation's block. -/
theorem tlbCapacity : Obligations.TlbCapacity := by
  refine ⟨Block.validCount_reset, fun s p f c => ⟨s.block.validCount_le, ?_, ?_, ?_⟩⟩
  · exact ⟨_, exec_tlbInsert p f c s, insertTlb_validCount_of_filled f c, insertTlb_validCount_of_replaced f c⟩
  · exact ⟨_, exec_tlbInvalidate p s, invalidateTlb_validCount_of_misses, invalidateTlb_validCount_of_found⟩
  · exact ⟨_, rfl, lookupTlb_validCount p s.block⟩

end Sys2Proof.Machine

/-! The page table's laws (42_page_table.md): the three micro-operations on one entry, and that no step moves a mapped page
to another frame; the obligations of that file are settled from them. -/

namespace Sys2Proof.Machine

/-! ### The three micro-operations -/

theorem exec_ptLookup (p : Page) (s : State) :
    exec (.ptLookup p) s = .next { s with uopResult := .frame (s.block.ptEntry p) } := rfl

theorem exec_ptMap (p : Page) (f : Frame) (s : State) :
    exec (.ptMap p f) s = .next { s with block := mapPt p f s.block, uopResult := .none } := rfl

theorem exec_ptUnmap (p : Page) (s : State) :
    exec (.ptUnmap p) s = .next { s with block := unmapPt p s.block, uopResult := .none } := rfl

/-- Settles O25: the one entry written is that of `mapPt_ptEntry` and `unmapPt_ptEntry`. -/
theorem pageTableReadsAndWritesOneEntry : Obligations.PageTableReadsAndWritesOneEntry := by
  intro s p f
  refine ⟨exec_ptLookup p s, ⟨_, exec_ptMap p f s, rfl, rfl, fun q => ?_⟩, ⟨_, exec_ptUnmap p s, rfl, rfl, fun q => ?_⟩⟩
  · rw [mapPt_ptEntry]
    simp only [eq_comm]
  · rw [unmapPt_ptEntry]
    simp only [eq_comm]

/-! ### Nothing moves a page (42_page_table.md R164) -/

/-- Every page that `b` maps is in the same frame in `c`, or unmapped there. -/
def Block.PagesStay (b c : Block) : Prop :=
  ∀ p f, b.ptEntry p = some f → c.ptEntry p = some f ∨ c.ptEntry p = none

theorem Block.PagesStay.refl (b : Block) : b.PagesStay b := fun _ _ => .inl

/-- FA.ALLOCATE leaves a page-table entry or, on the eviction path, unmaps it (43_frame_allocator.md R171). -/
theorem allocateFrame_ptEntry (p q : Page) (b : Block) :
    (allocateFrame p b).2.ptEntry q = b.ptEntry q ∨ (allocateFrame p b).2.ptEntry q = none := by
  rcases allocateFrame_cases p b with ⟨f, -, -, h⟩ | ⟨-, vp, -, h⟩
  · exact .inl (by rw [h])
  · rw [h, Block.setOccEntry_ptEntry, evictPage_ptEntry]
    split
    next => exact .inr rfl
    next => exact .inl rfl

/-- A page fault maps only the page that faults, which was unmapped, and unmaps at most the page evicted. -/
theorem Block.afterFault_pagesStay {b : Block} {p : Page} (d : PageBytes) (unmapped : b.ptEntry p = none) :
    b.PagesStay (b.afterFault p d) := by
  intro q f hq
  have hqp : q ≠ p := by
    rintro rfl
    exact absurd (unmapped.symm.trans hq) (Option.some_ne_none f).symm
  rw [Block.afterFault_ptEntry, if_neg hqp, ← hq]
  exact allocateFrame_ptEntry p q { b with statPageFaults := b.statPageFaults + 1#32 }

theorem State.Translates.pagesStay {s u : State} {p : Page} {k : Kind} {f : Frame} (h : s.Translates p k f u) :
    s.block.PagesStay u.block := by
  cases h with
  | tlbHit => exact .refl s.block
  | tableHit => exact .refl s.block
  | pageFault faults =>
    obtain ⟨-, unmapped, -⟩ := faults
    exact Block.afterFault_pagesStay (b := s.block.started) _ unmapped

/-- An XLATE moves no page, but where its page read fails. -/
theorem execXlate_pagesStay {arg : Arg} {s t : State} (hx : exec (.xlate arg) s = .next t)
    (hf : t.block.status.err ≠ .bsReadFailure) : s.block.PagesStay t.block := by
  cases execXlate_ends hx with
  | whileHalted => exact .refl s.block
  | clockFull => exact .refl s.block
  | answered live translates => exact translates.pagesStay
  | readFailed => exact absurd (by simp) hf
  | waits => exact .refl s.block

/-- Settles O49: by the kinds of step; reset unmaps every page, and in a state of a run the instruction is a command, of
which RDCSR changes nothing and an XLATE is `execXlate_pagesStay`. -/
theorem pagesNeverMove : Obligations.PagesNeverMove := by
  intro s t p f hi hs hf
  rcases step_cases hs with ⟨-, -, -, rfl⟩ | ⟨rest, -, -, rfl⟩ | ⟨i, u, hx, -, hfetch⟩ | ⟨w, rest, -, -, -, -, rfl⟩
  · exact .inl
  · exact fun _ => .inr (by simp)
  · rcases hfetch with ⟨w, hw, -⟩ | ⟨w, rest, -, -, -, hd, rfl⟩
    · exact absurd (hi.noUop.symm.trans hw) nofun
    · rcases decode_command hd with ⟨a, rfl⟩ | ⟨a, rfl⟩
      · exact execXlate_pagesStay hx hf p f
      · obtain ⟨r, rfl, -⟩ := execRdcsr_eq_next hx
        exact .inl
  · exact .inl

end Sys2Proof.Machine

/-! The frame allocator's laws (43_frame_allocator.md): the lowest empty frame, the eviction at the cursor, and FA.OCCUPY's one
entry; the obligations of that file are settled from them. -/

namespace Sys2Proof.Machine

/-! ### The two micro-operations -/

theorem exec_faAllocate_of_eq {p : Page} {s : State} {f : Frame} {b : Block} (h : allocateFrame p s.block = (f, b)) :
    exec (.faAllocate p) s = .next { s with block := b, uopResult := .frame (some f) } := by
  change execFaAllocate p s = _
  rw [execFaAllocate, h]

theorem exec_faOccupy (f : Frame) (p : Page) (s : State) :
    exec (.faOccupy f p) s = .next { s with block := occupyFrame f p s.block, uopResult := .none } := rfl

/-- Settles O26: `allocateFrame_of_free` leaves the block as it is. -/
theorem faAllocateTakesLowestEmptyFrame : Obligations.FaAllocateTakesLowestEmptyFrame := by
  intro s p f hempty hlow
  exact exec_faAllocate_of_eq (allocateFrame_of_free p hempty hlow)

/-- Settles O28: the one entry written is that of `occupyFrame_occEntry`. -/
theorem faOccupyWritesOneEntry : Obligations.FaOccupyWritesOneEntry := by
  intro s f p
  refine ⟨_, exec_faOccupy f p s, rfl, rfl, fun g => ?_⟩
  rw [occupyFrame_occEntry]
  simp only [eq_comm]

/-! ### The eviction path (43_frame_allocator.md R171) -/

/-- The block after the eviction path with `vp` the page in the cursor's frame. -/
def Block.evictAtCursor (b : Block) (vp : Page) : Block :=
  (evictPage vp { b with fifoCursor := b.fifoCursor + 1#7 }).setOccEntry b.fifoCursor none

theorem allocateFrame_of_full {b : Block} {vp : Page} (p : Page) (hfull : ∀ g, b.occEntry g ≠ none)
    (hv : b.occEntry b.fifoCursor = some vp) : allocateFrame p b = (b.fifoCursor, b.evictAtCursor vp) := by
  simp [allocateFrame, freeFrame_eq_none.mpr hfull, evictFrame, hv, Block.evictAtCursor]

theorem Block.evictAtCursor_frame (b : Block) (vp : Page) :
    b.evictAtCursor vp = { b with
      fifoCursor := (b.evictAtCursor vp).fifoCursor, pt := (b.evictAtCursor vp).pt
      tlb := (b.evictAtCursor vp).tlb, occ := (b.evictAtCursor vp).occ } := rfl

theorem Block.evictAtCursor_fifoCursor_toNat (b : Block) (vp : Page) :
    (b.evictAtCursor vp).fifoCursor.toNat = (b.fifoCursor.toNat + 1) % 128 :=
  BitVec.toNat_add b.fifoCursor 1#7

theorem Block.evictAtCursor_ptEntry (b : Block) (vp q : Page) :
    (b.evictAtCursor vp).ptEntry q = if q = vp then none else b.ptEntry q := by
  rw [evictAtCursor, setOccEntry_ptEntry, evictPage_ptEntry]
  simp only [eq_comm]
  rfl

theorem Block.evictAtCursor_occEntry (b : Block) (vp : Page) (g : Frame) :
    (b.evictAtCursor vp).occEntry g = if g = b.fifoCursor then none else b.occEntry g := by
  rw [evictAtCursor, occEntry_setOccEntry, evictPage_occEntry]
  simp only [eq_comm]
  rfl

theorem Block.evictAtCursor_slot (b : Block) (vp : Page) (i : Fin 16) :
    (b.evictAtCursor vp).slot i = (b.slot i).filter fun e => e.page != vp :=
  evictPage_slot vp { b with fifoCursor := b.fifoCursor + 1#7 } i

theorem Block.evictAtCursor_misses (b : Block) (vp : Page) : (b.evictAtCursor vp).TlbMisses vp :=
  invalidateTlb_misses vp (unmapPt vp { b with fifoCursor := b.fifoCursor + 1#7 })

/-- Settles O27: with no frame empty the allocation is `Block.evictAtCursor`, whose every part is a law above. -/
theorem faAllocateEvictsAtTheCursor : Obligations.FaAllocateEvictsAtTheCursor := by
  intro s p vp hfull hv
  exact ⟨_, exec_faAllocate_of_eq (allocateFrame_of_full p hfull hv), rfl, s.block.evictAtCursor_frame vp,
    s.block.evictAtCursor_fifoCursor_toNat vp, s.block.evictAtCursor_ptEntry vp, s.block.evictAtCursor_occEntry vp,
    s.block.evictAtCursor_slot vp, s.block.evictAtCursor_misses vp⟩

end Sys2Proof.Machine

/-! The laws of the backing-store port and of physical memory (44_backing_store_and_physical_memory.md): the page read in each
of its three ends, the byte read and the frame written, the canonical form through every step, and the XLATE that waits; the
obligations of that file are settled from them. -/

namespace Sys2Proof.Machine

/-! ### BS.READ_PAGE -/

theorem exec_bsReadPage_of_fails {s : State} {p : Page} (h : s.StoreFails p) :
    exec (.bsReadPage p) s = .next { s with bsAnswers := s.bsAnswers.tail, uopResult := .page none } := by
  simp [exec, execBsReadPage, readPage_of_fails h]

theorem exec_bsReadPage_of_silent {s : State} (p : Page) (h : s.StoreSilent) :
    exec (.bsReadPage p) s = .next { s with bsAnswers := s.bsAnswers.tail, waiting := some (.bsReadPage p) } := by
  simp [exec, execBsReadPage, readPage_of_silent h]

/-- The offset of a page's byte as the number it is (00_scope.md R10 (d)). -/
theorem storeOffset_eq_ofNat (p : Page) (i : Offset) : storeOffset p i = BitVec.ofNat 16 (p.toNat * 256 + i.toNat) := by
  rw [← storeOffset_toNat, BitVec.ofNat_toNat, BitVec.setWidth_eq]

/-- Settles O30: the page delivered is `Store.page`, whose bytes stand at `storeOffset`. -/
theorem bsReadPageDelivers : Obligations.BsReadPageDelivers := by
  intro s p h
  refine ⟨s.store.page p, exec_bsReadPage_of_delivers h, fun i => ?_⟩
  exact (s.store.page_getElem p (BitVec.ofFin i)).trans (congrArg s.store.byte (storeOffset_eq_ofNat p _))

/-- Settles O31: a failure and a silence, one lemma for each. -/
theorem bsReadPageFails : Obligations.BsReadPageFails :=
  fun _ p => ⟨exec_bsReadPage_of_fails, fun h => ⟨_, exec_bsReadPage_of_silent p h, rfl, rfl⟩⟩

/-! ### PM.WRITE_FRAME and PM.READ_BYTE -/

theorem exec_pmWriteFrame (f : Frame) (d : PageBytes) (s : State) :
    exec (.pmWriteFrame f d) s = .next { s with block := writeFrame f d s.block, uopResult := .none } := rfl

theorem exec_pmReadByte (pa : PAddr) (s : State) :
    exec (.pmReadByte pa) s = .next { s with uopResult := .byte (readByte pa s) } := rfl

/-- The frame's own bytes after a fill, by their number: `read_writeFrame` in the frame written. -/
theorem read_writeFrame_inside (f : Frame) (d : PageBytes) (b : Block) (i : Fin 256) :
    Memory.read (writeFrame f d b).pm (f.toNat * 256 + i.val) = some d[i.val] := by
  have h := read_writeFrame f f (BitVec.ofFin i) d b
  rwa [physicalAddress_toNat, if_pos rfl] at h

/-- A fill reaches no address outside its frame, in the 32,768 of physical memory or beyond. -/
theorem read_writeFrame_outside {f : Frame} {a : Nat} (d : PageBytes) (b : Block)
    (h : a < f.toNat * 256 ∨ f.toNat * 256 + 256 ≤ a) :
    Memory.read (writeFrame f d b).pm a = Memory.read b.pm a := by
  have hbase : (physicalAddress f 0#8).toNat = f.toNat * 256 := by simp [physicalAddress_toNat]
  rw [writeFrame, Memory.read_write, hbase, Vector.length_toList, if_neg (by omega)]

/-- Settles O32: inside the frame and outside it, one lemma for each. -/
theorem pmWriteFrameFillsOneFrame : Obligations.PmWriteFrameFillsOneFrame := by
  intro s f d
  exact ⟨_, exec_pmWriteFrame f d s, rfl, rfl, read_writeFrame_inside f d s.block,
    fun _ => read_writeFrame_outside d s.block⟩

/-- Settles O33: `readByte` gives the byte listed at the address, where one is. -/
theorem pmReadByteReturnsTheByte : Obligations.PmReadByteReturnsTheByte :=
  fun s pa => ⟨_, exec_pmReadByte pa s, fun _ => readByte_of_read⟩

/-! ### The canonical form of physical memory -/

/-- The canonical form is a matter of physical memory alone. -/
theorem Block.PmWf.of_pm_eq {b c : Block} (h : b.PmWf) (hpm : c.pm = b.pm) : c.PmWf := by
  rwa [Block.PmWf, hpm]

/-- Of the instructions other than XLATE only PM.WRITE_FRAME touches physical memory. -/
theorem OpChange.pmWf {b c : Block} {i : Instr} (h : OpChange b i c) (hpm : b.PmWf) : c.PmWf := by
  cases h with
  | tlbLookup p =>
    obtain ⟨v, hv⟩ := lookupTlb_changes_tlb p b
    rw [hv]
    exact hpm
  | faAllocate p =>
    obtain ⟨-, hsame, -⟩ := allocateFrame_frame p b
    exact hpm.of_pm_eq hsame
  | pmWriteFrame f d => exact writeFrame_pmWf hpm
  | _ => exact hpm

/-- However an XLATE ends physical memory is as it was, has one frame filled, or after a failed read lists no byte. -/
theorem XlateEnds.pmWf {arg : Arg} {s t : State} (h : XlateEnds arg s t) (hpm : s.block.PmWf) : t.block.PmWf := by
  cases h with
  | answered _ translates => exact translates.pmWf hpm
  | readFailed => exact ⟨rfl, rfl⟩
  | whileHalted => exact hpm
  | clockFull => exact hpm
  | waits => exact hpm

theorem exec_pmWf {s t : State} {i : Instr} (hx : exec i s = .next t) (hpm : s.block.PmWf) : t.block.PmWf := by
  cases i with
  | xlate arg => exact (execXlate_ends hx).pmWf hpm
  | _ => exact (exec_of_not_xlate hx nofun).1.pmWf hpm

/-- Settles O52: by the kinds of step, an instruction's part being `exec_pmWf`. -/
theorem stepKeepsMemoryCanonical : Obligations.StepKeepsMemoryCanonical := by
  intro s t hpm hs
  rcases step_cases hs with ⟨-, -, -, rfl⟩ | ⟨rest, -, -, rfl⟩ | ⟨i, u, hx, -, hfetch⟩ | ⟨w, rest, -, -, -, -, rfl⟩
  · exact hpm
  · exact ⟨rfl, rfl⟩
  · rcases hfetch with ⟨w, -, -, rfl⟩ | ⟨w, rest, -, -, -, -, rfl⟩ <;> exact exec_pmWf hx hpm
  · exact hpm

/-! ### An XLATE that the store never answers (44_backing_store_and_physical_memory.md R188) -/

/-- A page fault whose read is not answered ends steps 3 to 6 of an XLATE with the read's choice used up. -/
theorem resolve_of_silent {s : State} {p : Page} (hf : s.Faults p) (hs : s.StoreSilent) :
    resolve p (s.withBlock s.block.started) =
      .unanswered (({ s with bsAnswers := s.bsAnswers.tail }).withBlock (s.block.started.afterAllocate p).2) := by
  obtain ⟨miss, unmapped, room⟩ := hf
  rw [resolve_fault (s := s.withBlock s.block.started) miss unmapped,
    serviceFault_of_ne (s := s.withBlock s.block.started) room, readPage_withBlock, readPage_of_silent hs]
  rfl

/-- Of an XLATE that waits, its logical address is kept, and none of its effects but the read's choice is there. -/
theorem execXlate_of_silent {s : State} {arg : Arg} (hl : s.Live) (hf : s.Faults (arg.extractLsb' 8 8))
    (hs : s.StoreSilent) :
    exec (.xlate arg) s = .next { s with
      waiting := some (.xlate ((logicalAddress arg).setWidth 32)), bsAnswers := s.bsAnswers.tail } := by
  obtain ⟨running, hclock, hadd⟩ := hl
  change s.block.clock ≠ Config.ctrMax at hclock
  simp [exec, execXlate, Block.halted, running, hclock, startAccess_of_ne hadd, pageOf_logicalAddress,
    resolve_of_silent hf hs]

/-- The logical address kept still names the page to present to the store. -/
theorem heldBy_kept_xlate (arg : Arg) :
    Instr.heldBy (.xlate ((logicalAddress arg).setWidth 32)) = some (arg.extractLsb' 8 8) := by
  rw [Instr.heldBy, logicalAddress_setWidth, pageOf_logicalAddress]

/-- Settles O13: the state of `execXlate_of_silent` waits, so a step leaves it or takes the reset input. -/
theorem xlateWaitsForSilentStore : Obligations.XlateWaitsForSilentStore := by
  intro s arg hl hf hs
  refine ⟨_, execXlate_of_silent hl hf hs, rfl, nofun, heldBy_kept_xlate arg, ?_, ?_⟩
  · intro hu hi
    exact step_of_waiting hu nofun hi
  · intro rest hu hi
    exact ⟨_, step_of_rst hu hi, rfl, rfl, rfl, rfl, rfl⟩

end Sys2Proof.Machine

/-! The laws of the statistics and the control registers (45_stats_and_csr.md): the rates, the record operations, and RDCSR;
the obligations of that file are settled from them. -/

namespace Sys2Proof.Machine

/-! ### The rates (45_stats_and_csr.md R204) -/

theorem counter_cast_pos {c : Counter} (h : c ≠ 0#32) : (0 : Rat) < c.toNat :=
  Nat.cast_pos.mpr (Nat.pos_of_ne_zero fun h0 => h (BitVec.eq_of_toNat_eq h0))

theorem rate_mul_addresses (z : Rat) (count : Counter) {addresses : Counter} (h : addresses ≠ 0#32) :
    rate z count addresses * (addresses.toNat : Rat) = 100 * (count.toNat : Rat) := by
  rw [rate, if_neg h, div_mul_cancel₀ _ (counter_cast_pos h).ne']

theorem rate_nonneg (z : Rat) (count : Counter) {addresses : Counter} (h : addresses ≠ 0#32) :
    0 ≤ rate z count addresses := by
  rw [rate, if_neg h]
  positivity

/-- Counts that together are at most the addresses have rates that together are at most 100 (10_state.md R43). -/
theorem rate_add_rate_le (y z : Rat) {hits faults addresses : Counter} (h : addresses ≠ 0#32)
    (hle : hits.toNat + faults.toNat ≤ addresses.toNat) :
    rate y hits addresses + rate z faults addresses ≤ 100 := by
  have hcast : (hits.toNat : Rat) + faults.toNat ≤ addresses.toNat := by exact_mod_cast hle
  refine le_of_mul_le_mul_right ?_ (counter_cast_pos h)
  calc (rate y hits addresses + rate z faults addresses) * (addresses.toNat : Rat)
      = 100 * ((hits.toNat : Rat) + faults.toNat) := by
        rw [add_mul, rate_mul_addresses y hits h, rate_mul_addresses z faults h, mul_add]
    _ ≤ 100 * (addresses.toNat : Rat) := mul_le_mul_of_nonneg_left hcast (by norm_num)

/-- Settles O60: both rates are `rate`, and the bound on their sum is the invariant's `countersBounded`. -/
theorem ratesAreBetweenZeroAndHundred : Obligations.RatesAreBetweenZeroAndHundred := by
  intro s hi hread hne
  have bounded : s.block.CountersBounded := (hi.good hread).countersBounded
  exact ⟨rate_mul_addresses _ _ hne, rate_mul_addresses _ _ hne, rate_nonneg _ _ hne, rate_nonneg _ _ hne,
    rate_add_rate_le _ _ hne bounded⟩

/-! ### The record operations (45_stats_and_csr.md R200 to R202) -/

/-- Settles O35: below its last value a record operation puts `c + 1` for its counter `c`, exact by `add_one_toNat`. -/
theorem stRecordsAddOne : Obligations.StRecordsAddOne := fun _ =>
  ⟨fun h => ⟨_, exec_stRecordAccess_of_ne h, rfl, add_one_toNat h⟩,
    fun h => ⟨_, exec_stRecordTlbHit_of_ne h, rfl, add_one_toNat h⟩,
    fun h => ⟨_, exec_stRecordPageFault_of_ne h, rfl, add_one_toNat h⟩⟩

/-! ### RDCSR (45_stats_and_csr.md R205) -/

theorem csrOf_number (c : Csr) : csrOf c.number = some c := by
  cases c <;> rfl

/-- RDCSR of a register's number answers the register's content and changes nothing else. -/
theorem exec_rdcsr_of_number {arg : Arg} {c : Csr} (s : State) (h : csrNumber arg = c.number) :
    exec (.rdcsr arg) s = .next { s with responses := .csr (s.block.csr c) :: s.responses } := by
  change execRdcsr arg s = _
  rw [execRdcsr, h, csrOf_number]
  rfl

/-- STATUS from its highest field down (10_state.md R48). -/
theorem Status.word_eq_fields (st : Status) :
    st.word = (0#29 ++ (st.err.code ++ BitVec.ofBool st.halted) : BitVec (29 + 3)) :=
  BitVec.setWidth_eq_append (by decide)

theorem Status.word_halted (st : Status) : st.word.extractLsb' 0 1 = BitVec.ofBool st.halted := by
  rw [Status.word_eq_fields, BitVec.extractLsb'_append_eq_of_add_le (by decide)]
  exact BitVec.extractLsb'_append_eq_right

theorem Status.word_err (st : Status) : st.word.extractLsb' 1 2 = st.err.code := by
  rw [Status.word_eq_fields, BitVec.extractLsb'_append_eq_of_add_le (by decide)]
  exact BitVec.extractLsb'_append_eq_left

theorem Status.word_above (st : Status) : st.word.extractLsb' 3 29 = 0#29 := by
  rw [Status.word_eq_fields]
  exact BitVec.extractLsb'_append_eq_left

/-- Settles O37: by the register that the number names; the fields of STATUS are those of `Status.word`. -/
theorem rdcsrAnswersTheRegister : Obligations.RdcsrAnswersTheRegister := by
  intro s arg
  refine ⟨exec_rdcsr_of_number (c := .statAddresses) s, exec_rdcsr_of_number (c := .statTlbHits) s,
    exec_rdcsr_of_number (c := .statPageFaults) s, fun h => ?status, reservedCsrNumberAnswered.2 s arg⟩
  case status =>
    have err : s.block.status.word.extractLsb' 1 2 = s.block.status.err.code := Status.word_err _
    refine ⟨_, exec_rdcsr_of_number (c := .status) s h, ?_, fun e => ?_, fun e => ?_, fun e => ?_, Status.word_above _⟩
    · refine (Status.word_halted _).trans ?_
      cases s.block.status.halted <;> rfl
    all_goals
      refine err.trans ?_
      rw [e]
      rfl

end Sys2Proof.Machine

/-! The laws of the exceptions (60_exceptions.md): the three fatal ends of an XLATE, each as the state it answers, and that no
step but reset leaves the halt; the obligations of that file are settled from them. -/

namespace Sys2Proof.Machine

/-! ### The fatal ends of an XLATE (60_exceptions.md R221) -/

theorem exec_xlate_of_halted {s : State} (arg : Arg) (h : s.block.status.halted = true) :
    exec (.xlate arg) s = .next (respond .errFatal s) :=
  if_pos h

theorem exec_xlate_of_clock_full {s : State} (arg : Arg) (running : s.block.status.halted = false)
    (full : s.block.clock = Config.ctrMax) : exec (.xlate arg) s = .next (raiseFatal .ctrOverflow s) :=
  (if_neg (ne_true_of_eq_false running)).trans (if_pos full)

/-- A page fault whose read fails ends steps 3 to 6 of an XLATE with the read's choice used up. -/
theorem resolve_of_fails {s : State} {p : Page} (hf : s.Faults p) (hs : s.StoreFails p) :
    resolve p (s.withBlock s.block.started) =
      .readFailed (({ s with bsAnswers := s.bsAnswers.tail }).withBlock (s.block.started.afterAllocate p).2) := by
  obtain ⟨miss, unmapped, room⟩ := hf
  rw [resolve_fault (s := s.withBlock s.block.started) miss unmapped,
    serviceFault_of_ne (s := s.withBlock s.block.started) room, readPage_withBlock, readPage_of_fails hs]
  rfl

/-- A failed page read takes the fatal path from the block that the allocation left (60_exceptions.md R216). -/
theorem exec_xlate_of_fails {s : State} {arg : Arg} (hl : s.Live) (hf : s.Faults (arg.extractLsb' 8 8))
    (hs : s.StoreFails (arg.extractLsb' 8 8)) :
    exec (.xlate arg) s = .next (raiseFatal .bsReadFailure (({ s with bsAnswers := s.bsAnswers.tail }).withBlock
      (s.block.started.afterAllocate (arg.extractLsb' 8 8)).2)) := by
  obtain ⟨running, hclock, hadd⟩ := hl
  change s.block.clock ≠ Config.ctrMax at hclock
  simp [exec, execXlate, Block.halted, running, hclock, startAccess_of_ne hadd, pageOf_logicalAddress,
    resolve_of_fails hf hs]

/-- Settles O38: the fatal path of `exec_xlate_of_fails` replaces the block and the draw, and answers ERR_FATAL. -/
theorem failedReadTakesTheFatalPath : Obligations.FailedReadTakesTheFatalPath := by
  intro s arg hl hf hs
  exact ⟨_, exec_xlate_of_fails hl hf hs, raiseFatal_status _ _, rfl⟩

/-- Settles O39: the fatal path of CTR_OVERFLOW sets `status` and answers, and no more. -/
theorem clockOverflowTakesTheFatalPath : Obligations.ClockOverflowTakesTheFatalPath :=
  fun _ arg => exec_xlate_of_clock_full arg

/-- Settles O40: the opening check of XLATE is on the halt. -/
theorem xlateWhileHaltedChangesNothing : Obligations.XlateWhileHaltedChangesNothing :=
  fun _ arg => exec_xlate_of_halted arg

/-! ### The halted state (60_exceptions.md R222, R223) -/

theorem OpChange.status_eq {b c : Block} {i : Instr} (h : OpChange b i c) : c.status = b.status := by
  obtain ⟨hstatus, -⟩ := h.keeps
  exact hstatus

/-- In the halted state no instruction touches `status`: an XLATE is only answered, and the others never do. -/
theorem exec_status_of_halted {s t : State} {i : Instr} (hx : exec i s = .next t) (h : s.block.status.halted = true) :
    t.block.status = s.block.status := by
  cases i with
  | xlate arg =>
    obtain rfl : respond .errFatal s = t := Host.Outcome.next.inj ((exec_xlate_of_halted arg h).symm.trans hx)
    rfl
  | _ =>
    obtain ⟨change, -⟩ := exec_of_not_xlate hx nofun
    exact change.status_eq

/-- Settles O41: by the kinds of step, an instruction's part being `exec_status_of_halted`. -/
theorem onlyResetLeavesTheHalt : Obligations.OnlyResetLeavesTheHalt := by
  intro s t hs h hreset
  rcases step_cases hs with ⟨-, -, -, rfl⟩ | ⟨rest, hu, hi, -⟩ | ⟨i, u, hx, -, hfetch⟩ | ⟨w, rest, -, -, -, -, rfl⟩
  · rfl
  · exact absurd ⟨hu, rest, hi⟩ hreset
  · have hub : u.block = s.block := by
      rcases hfetch with ⟨w, -, -, rfl⟩ | ⟨w, rest, -, -, -, -, rfl⟩ <;> rfl
    rw [← hub] at h ⊢
    exact exec_status_of_halted hx h
  · rfl

end Sys2Proof.Machine

/-! The laws of reset (70_reset_and_hazards.md section 1): what the reset input makes of a state, and that the reset state has
the invariant; the obligations about reset are settled from them. -/

namespace Sys2Proof.Machine

/-- Settles O42: the three arrays by the laws of `Block.reset`, the numbers as `Block.reset` lists them. -/
theorem resetLeavesTheEmptySystem : Obligations.ResetLeavesTheEmptySystem :=
  ⟨Block.reset_slot, Block.reset_ptEntry, Block.reset_occEntry, rfl, rfl, rfl, rfl, rfl, rfl⟩

/-- Where no micro-operation is issued, the reset input touches only the block, the command in progress and the draw of free
values: the responses and the store stay. -/
theorem applyReset_of_no_uop {s : State} (hu : s.uopIssue = none) :
    applyReset s = { s with block := Block.reset, waiting := none, freeDraw := s.freeDraw + 1 } := by
  rw [applyReset, hu]

/-- Settles O43: the step is `applyReset` on the state with the input taken, and no micro-operation was issued to be lost. -/
theorem resetInputResetsFromAnyState : Obligations.ResetInputResetsFromAnyState := by
  intro s rest hu hi
  have hstep := step_of_rst hu hi
  rw [applyReset_of_no_uop (s := { s with inputs := rest }) hu] at hstep
  exact ⟨_, hstep, rfl, rfl, rfl⟩

/-- Settles O53: the reset input leaves a state with the invariant, and on `State.reset` it changes only the draw of free values,
which the invariant does not read. -/
theorem invariantAtReset : Obligations.InvariantAtReset :=
  State.Inv.of_same_block (applyReset_inv (s := State.reset)) rfl rfl rfl rfl

end Sys2Proof.Machine

/-! The laws that stand apart from any one instruction: an address file read token by token (30_encoding.md section 5), the
number a byte is read as (44_backing_store_and_physical_memory.md section 2), and a counter that is full
(93_implementation_defined.md U6); the obligations about them are settled from them. -/

namespace Sys2Proof.Machine

/-! ### Address files (30_encoding.md R104) -/

theorem addressFile_cons_of_some {token : List Char} {z : Int} (tokens : List (List Char)) (h : readToken token = some z) :
    addressFile (token :: tokens) = xlateWord z :: addressFile tokens := by
  rw [addressFile, h]

theorem addressFile_cons_of_none {token : List Char} (tokens : List (List Char)) (h : readToken token = none) :
    addressFile (token :: tokens) = [] := by
  rw [addressFile, h]

/-- Tokens that are integers give their XLATE words in order, before the commands of what follows them. -/
theorem addressFile_append {good : List (List Char)} {values : List Int} (tail : List (List Char))
    (h : good.map readToken = values.map some) :
    addressFile (good ++ tail) = values.map xlateWord ++ addressFile tail := by
  induction good generalizing values with
  | nil =>
    obtain rfl : values = [] := List.map_eq_nil_iff.mp h.symm
    rfl
  | cons token tokens ih =>
    obtain ⟨z, zs, rfl, hz, hzs⟩ := List.map_eq_cons_iff.mp h.symm
    rw [List.cons_append, addressFile_cons_of_some _ hz.symm, ih hzs.symm]
    rfl

/-- Settles O59: by `addressFile_append`, with nothing after the good tokens and with the bad token there. -/
theorem addressFileStopsAtABadToken : Obligations.AddressFileStopsAtABadToken := by
  intro good values bad rest hgood hbad
  constructor
  · simpa [addressFile] using addressFile_append [] hgood
  · rw [addressFile_append _ hgood, addressFile_cons_of_none rest hbad, List.append_nil]

/-! ### Bytes as numbers (44_backing_store_and_physical_memory.md R191) -/

theorem sint8_of_lt {b : Byte} (h : b.toNat < 128) : sint8 b = b.toNat :=
  if_pos h

theorem sint8_of_le {b : Byte} (h : 128 ≤ b.toNat) : sint8 b = (b.toNat : Int) - 256 :=
  if_neg h.not_gt

/-- The two's complement of a byte wraps where its top bit is set, at 128. -/
theorem sint8_eq_toInt (b : Byte) : sint8 b = b.toInt := by
  rw [BitVec.toInt_eq_toNat_cond]
  rcases Nat.lt_or_ge b.toNat 128 with h | h
  · rw [sint8_of_lt h, if_pos (by omega)]
  · rw [sint8_of_le h, if_neg (by omega)]
    rfl

/-- Settles O34: the range is that of every 8-bit two's complement number, by `sint8_eq_toInt`. -/
theorem byteReadsAsTwosComplement : Obligations.ByteReadsAsTwosComplement := by
  intro b
  refine ⟨sint8_of_lt, sint8_of_le, sint8_eq_toInt b, ?_⟩
  rw [sint8_eq_toInt]
  exact ⟨BitVec.le_toInt b, BitVec.toInt_le⟩

/-! ### Full counters (93_implementation_defined.md U6) -/

/-- A counter at its last value has no next one, whichever counter of the block it is. -/
theorem counted_increment_of_full {c : Counter} (update : Counter → Block) (s : State) (h : c = Config.ctrMax) :
    counted ((increment c).map update) s = .fault .counterWouldWrap := by
  rw [h, increment_max]
  rfl

/-- Settles O36: each record operation is `counted` of its own counter's increment. -/
theorem fullCounterFaults : Obligations.FullCounterFaults := fun s =>
  ⟨counted_increment_of_full _ s, counted_increment_of_full _ s, counted_increment_of_full _ s⟩

end Sys2Proof.Machine
